-- ==== Sys2Proof/Word.lean ====
section
/-! DEFINITION. The word types of the block: an 8-bit plane byte and the 16-bit word of the command and response ports. -/

namespace Sys2Proof

/-- A plane byte, a glyph byte or a short operand (spec/00_scope.md section 4). -/
abbrev Byte := BitVec 8

/-- A word of the command port or of the response port (R80). -/
abbrev Word := BitVec 16

end Sys2Proof
end

