-- ==== Sys2Proof/Config.lean ====
section
/-! DEFINITION. The parameters of an instance of the block (R1 to R5, R200, R201), which of them the spec admits
(R3, R201, R263), and the free values: the installed instance, the plane bytes after a reset, the one response the
spec does not state, and the font provider outside its domain. -/

namespace Sys2Proof

/-- The two planes (R22, R23): the picture being drawn, and the picture last sent. -/
inductive PlaneId where
  | cur
  | prev
deriving DecidableEq, Repr, Inhabited

/-- `CIRCLE_FILL` (R5): which square the last step of a solid circle fills (R184). -/
inductive CircleFill where
  | bounding
  | terminal
deriving DecidableEq, Repr, Inhabited

/-- One font of the provider, as a table. `glyphs` holds, for each glyph index, its row bytes in row-byte order
(R202); their number is the font's `glyphCount` (R201). Log entries 1 and 13. -/
structure Font where
  height    : Nat
  maxWidth  : Nat
  firstCode : Nat
  glyphs    : List (List Byte)
deriving DecidableEq, Repr, Inhabited

/-- The number of row bytes of every glyph of a font: one a column up to height 8, two above (R202). -/
def Font.bytesPerGlyph (f : Font) : Nat :=
  if f.height ≤ 8 then f.maxWidth else 2 * f.maxWidth

/-- The ranges R201 admits, and a row byte for every argument the block can ask for (R203). -/
def Font.wf (f : Font) : Bool :=
  decide (1 ≤ f.height) && decide (f.height ≤ 16) && decide (f.maxWidth ≤ 255) && decide (f.firstCode ≤ 255)
    && decide (f.glyphs.length ≤ 256) && f.glyphs.all (fun g => g.length == f.bytesPerGlyph)

/-- The parameters of an instance: the geometry (R1), the fonts (R4), the circle fill (R5). No step writes them (R37). -/
structure Params where
  v          : Nat
  h          : Nat
  fonts      : List Font
  circleFill : CircleFill
deriving DecidableEq, Repr, Inhabited

/-- What the spec asks of an instance: `1 <= V, H <= 32767` (R3), `FONT_COUNT >= 1` (R4), every font's metrics
in range (R201); R263 gathers them. -/
def Params.wf (p : Params) : Bool :=
  decide (1 ≤ p.v) && decide (p.v ≤ 32767) && decide (1 ≤ p.h) && decide (p.h ≤ 32767)
    && !p.fonts.isEmpty && p.fonts.all Font.wf

/-- An instance the spec admits. The values after `:=` only show that one exists; nothing reads them. -/
structure Chip where
  params : Params := { v := 1, h := 1, fonts := [{ height := 1, maxWidth := 0, firstCode := 0, glyphs := [] }], circleFill := .bounding }
  ok     : params.wf = true := by decide
deriving DecidableEq, Repr, Inhabited

/-- The instance that `Machine.State.reset` describes: some instance the spec admits, and nothing more is known of
it (R1, spec/91_not_in_source.md N1: no particular `V`, `H` may be assumed). FREE VALUE, log entry 1. -/
opaque Config.installed : Chip

/-- The byte that the `epoch`-th reset leaves at an index of a plane: unspecified (R38). FREE VALUE, log entry 3. -/
opaque Config.planeByte : Nat → PlaneId → Nat → Byte

/-- The record that `metrics(f)` answers (R200). -/
structure Metrics where
  height     : Nat
  maxWidth   : Nat
  firstCode  : Nat
  glyphCount : Nat
deriving DecidableEq, Repr, Inhabited

/-- What `metrics` answers for a font number at or above `FONT_COUNT`, which the block never asks (R203). FREE VALUE,
log entry 12. -/
opaque Config.strayMetrics : Nat → Metrics

/-- What `glyphRow` answers outside the domain of R203, where the block never asks. FREE VALUE, log entry 12. -/
opaque Config.strayRow : Nat → Nat → Nat → Byte

/-- The response word of `FONTMAX` when `FONT_COUNT` does not fit 16 bits, which R123 does not state.
FREE VALUE, log entry 10. -/
opaque Config.fontCountTooWide : Nat → Word

end Sys2Proof
end

