-- ==== Sys2Proof/Syntax.lean ====
section
/-! DEFINITION. The commands of the block: one constructor of `Instr` per row of spec/opcode_table.json (R90). -/

namespace Sys2Proof

/-- The three logical colours (spec/00_scope.md section 5); their codes are in `Colour.code`. -/
inductive Colour where
  | black
  | white
  | grey
deriving DecidableEq, Repr, Inhabited

/-- The causes of the fault (R243). -/
inductive FaultCause where
  | fOpcode
  | fReserved
deriving DecidableEq, Repr, Inhabited

/-- The 23 commands. A 16-bit operand is kept as the word that carried it; what it means as a number is said
in Machine/Operands.lean (R81). Operand order is the assembler's (R94). -/
inductive Instr where
  /-- `SETORIENT sel` (R111). -/
  | setorient (sel : Byte)
  /-- `SETPEN f` (R112). -/
  | setpen (f : Bool)
  /-- `SETINV f` (R113). -/
  | setinv (f : Bool)
  /-- `SELFONT sel` (R114). -/
  | selfont (sel : Byte)
  /-- `SETFSOLID f` (R115). -/
  | setfsolid (f : Bool)
  /-- `SETFSPX v` (R116). -/
  | setfspx (v : Byte)
  /-- `SETFSPY v` (R117). -/
  | setfspy (v : Byte)
  /-- `GETORIENT` (R119). -/
  | getorient
  /-- `SIZEX` (R120). -/
  | sizex
  /-- `SIZEY` (R121). -/
  | sizey
  /-- `GETFONT` (R122). -/
  | getfont
  /-- `FONTMAX` (R123). -/
  | fontmax
  /-- `CHARSZX` (R124). -/
  | charszx
  /-- `RDPIX x, y` (R147). -/
  | rdpix (x y : Word)
  /-- `CLEAR c` (R150). -/
  | clear (c : Colour)
  /-- `POINT x, y, c` (R146). -/
  | point (x y : Word) (c : Colour)
  /-- `LINE x1, y1, x2, y2, c` (R174). -/
  | line (x1 y1 x2 y2 : Word) (c : Colour)
  /-- `DLINE x0, y0, dx, dy, c` (R175). -/
  | dline (x0 y0 dx dy : Word) (c : Colour)
  /-- `RECT x1, y1, x2, y2, c` (R178). -/
  | rect (x1 y1 x2 y2 : Word) (c : Colour)
  /-- `DRECT x0, y0, dx, dy, c` (R179). -/
  | drect (x0 y0 dx dy : Word) (c : Colour)
  /-- `CIRCLE x0, y0, r, c` (R185). -/
  | circle (x0 y0 r : Word) (c : Colour)
  /-- `GTEXT x0, y0, fg, bg, text` (R207); `text` is the list of character codes. -/
  | gtext (x0 y0 : Word) (fg bg : Colour) (text : List Byte)
  /-- `XFER` (R220). -/
  | xfer
deriving DecidableEq, Repr, Inhabited

/-- The formats of R82. -/
inductive Format where
  | z
  | p
  | c
  | q
  | t
deriving DecidableEq, Repr, Inhabited

end Sys2Proof
end

