-- ==== Sys2Proof/WellFormed.lean ====
section
/-! DEFINITION. Which commands have an encoding. Every operand but the text is bounded by its type. -/

namespace Sys2Proof

/-- A command is well formed when it has an encoding: the length of a text is bits 7:0 of one word, so at most
255 characters (R81, spec/00_scope.md section 4). -/
def Instr.wf : Instr → Bool
  | .setorient _ | .setpen _ | .setinv _ | .selfont _ | .setfsolid _ | .setfspx _ | .setfspy _ => true
  | .getorient | .sizex | .sizey | .getfont | .fontmax | .charszx | .rdpix _ _ => true
  | .clear _ | .point _ _ _ | .line _ _ _ _ _ | .dline _ _ _ _ _ | .rect _ _ _ _ _ | .drect _ _ _ _ _
  | .circle _ _ _ _ => true
  | .gtext _ _ _ _ text => decide (text.length ≤ 255)
  | .xfer => true

end Sys2Proof
end

