-- ==== Sys2Proof/Decode.lean ====
section
/-! DEFINITION. Decoding of the word stream (R80 to R93), total and rejecting by the fault cause; the encoder,
written from the same tables; the opcode map of R90 as rows; the assembler notation (R94) and the pseudo-commands
(R95). -/

namespace Sys2Proof

/-! ## Fields -/

/-- Bits 15:8 of a word: the opcode of a header (R80), the reserved half of a length or character word (R81). -/
def Word.high (w : Word) : Byte := w.extractLsb' 8 8

/-- Bits 7:0 of a word: the short operand of a header (R80), a length or a character code (R81). -/
def Word.low (w : Word) : Byte := w.extractLsb' 0 8

/-- The colour codes of R84. -/
def Colour.code : Colour → BitVec 2
  | .black => 0
  | .white => 1
  | .grey => 2

/-- The colour of a 2-bit code; code 3 is reserved (R84). -/
def Colour.ofCode? (k : BitVec 2) : Option Colour :=
  if k = 0 then some .black else if k = 1 then some .white else if k = 2 then some .grey else none

/-- A flag operand: `a[0]`, with `a[7:1]` reserved zero (R85). -/
def flagOf? (a : Byte) : Option Bool :=
  if a.extractLsb' 1 7 = 0 then some (a.getLsbD 0) else none

/-- The colour operand of a drawing command: `a[1:0]`, with `a[7:2]` reserved zero (R88). -/
def colourOf? (a : Byte) : Option Colour :=
  if a.extractLsb' 2 6 = 0 then Colour.ofCode? (a.extractLsb' 0 2) else none

/-- The two colours of `GTEXT`: text in `a[1:0]`, background in `a[3:2]`, `a[7:4]` reserved zero (R88). -/
def coloursOf? (a : Byte) : Option (Colour × Colour) :=
  if a.extractLsb' 4 4 = 0 then
    match Colour.ofCode? (a.extractLsb' 0 2), Colour.ofCode? (a.extractLsb' 2 2) with
    | some fg, some bg => some (fg, bg)
    | _, _ => none
  else none

/-! ## The header -/

/-- What a header that passes its checks selects: a whole one-word command, or a command that waits for its
operand words (R82). -/
inductive Header where
  | whole (i : Instr)
  | rdpix
  | point (c : Colour)
  | line (c : Colour)
  | dline (c : Colour)
  | rect (c : Colour)
  | drect (c : Colour)
  | circle (c : Colour)
  | gtext (fg bg : Colour)
deriving DecidableEq, Repr

/-- A header whose short operand is checked: a failed check is `F_RESERVED` (R92). -/
def checked {α : Type} (operand : Option α) (sel : α → Header) : Except FaultCause Header :=
  match operand with
  | some x => .ok (sel x)
  | none => .error .fReserved

/-- A command without a short operand: all of `a` is reserved zero (R87). -/
def noOperand (a : Byte) (h : Header) : Except FaultCause Header :=
  if a = 0 then .ok h else .error .fReserved

/-- The check of a header word (R83, R90): the opcode first (R244), then the reserved bits and colour codes of
`a` (R92); an opcode outside the map of R90 is `F_OPCODE` whatever `a` holds (R91). -/
def decodeHeader (w : Word) : Except FaultCause Header :=
  let a := w.low
  match w.high.toNat with
  | 0x01 => .ok (.whole (.setorient a))
  | 0x02 => checked (flagOf? a) (fun f => .whole (.setpen f))
  | 0x03 => checked (flagOf? a) (fun f => .whole (.setinv f))
  | 0x04 => .ok (.whole (.selfont a))
  | 0x05 => checked (flagOf? a) (fun f => .whole (.setfsolid f))
  | 0x06 => .ok (.whole (.setfspx a))
  | 0x07 => .ok (.whole (.setfspy a))
  | 0x10 => noOperand a (.whole .getorient)
  | 0x11 => noOperand a (.whole .sizex)
  | 0x12 => noOperand a (.whole .sizey)
  | 0x13 => noOperand a (.whole .getfont)
  | 0x14 => noOperand a (.whole .fontmax)
  | 0x15 => noOperand a (.whole .charszx)
  | 0x16 => noOperand a .rdpix
  | 0x20 => checked (colourOf? a) (fun c => .whole (.clear c))
  | 0x21 => checked (colourOf? a) .point
  | 0x22 => checked (colourOf? a) .line
  | 0x23 => checked (colourOf? a) .dline
  | 0x24 => checked (colourOf? a) .rect
  | 0x25 => checked (colourOf? a) .drect
  | 0x26 => checked (colourOf? a) .circle
  | 0x27 => checked (coloursOf? a) (fun c => .gtext c.1 c.2)
  | 0x30 => noOperand a (.whole .xfer)
  | _ => .error .fOpcode

/-! ## A command -/

/-- The reading of a word sequence as one command (R93): a complete command and the words after it, a proper
prefix of a command, or a word that fails its check. -/
inductive Decoded where
  | done (i : Instr) (rest : List Word)
  | incomplete
  | malformed (cause : FaultCause)
deriving DecidableEq, Repr

/-- The reading of the character words of a `GTEXT`. -/
inductive Chars where
  | got (text : List Byte) (rest : List Word)
  | short
  | bad
deriving DecidableEq, Repr

/-- Takes `n` character words, each checked as it arrives: bits 15:8 reserved zero (R81, R83, R92). -/
def takeChars : Nat → List Word → Chars
  | 0, ws => .got [] ws
  | _ + 1, [] => .short
  | n + 1, w :: ws =>
    if w.high = 0 then
      match takeChars n ws with
      | .got text rest => .got (w.low :: text) rest
      | .short => .short
      | .bad => .bad
    else .bad

/-- Takes the operand words of `GTEXT` after its header: `x0`, `y0`, the length word, the characters (R82). -/
def decodeGtext (fg bg : Colour) : List Word → Decoded
  | x0 :: y0 :: n :: ws =>
    if n.high = 0 then
      match takeChars n.low.toNat ws with
      | .got text rest => .done (.gtext x0 y0 fg bg text) rest
      | .short => .incomplete
      | .bad => .malformed .fReserved
    else .malformed .fReserved
  | _ => .incomplete

/-- Takes the operand words the header asks for (R82); operand words of formats P, C and Q have no reserved bit
(R92). -/
def decodeOperands : Header → List Word → Decoded
  | .whole i, ws => .done i ws
  | .rdpix, x :: y :: ws => .done (.rdpix x y) ws
  | .point c, x :: y :: ws => .done (.point x y c) ws
  | .line c, x1 :: y1 :: x2 :: y2 :: ws => .done (.line x1 y1 x2 y2 c) ws
  | .dline c, x0 :: y0 :: dx :: dy :: ws => .done (.dline x0 y0 dx dy c) ws
  | .rect c, x1 :: y1 :: x2 :: y2 :: ws => .done (.rect x1 y1 x2 y2 c) ws
  | .drect c, x0 :: y0 :: dx :: dy :: ws => .done (.drect x0 y0 dx dy c) ws
  | .circle c, x0 :: y0 :: r :: ws => .done (.circle x0 y0 r c) ws
  | .gtext fg bg, ws => decodeGtext fg bg ws
  | _, _ => .incomplete

/-- Reads the first command of a word sequence; total on any words (R93). -/
def decode : List Word → Decoded
  | [] => .incomplete
  | w :: ws =>
    match decodeHeader w with
    | .error cause => .malformed cause
    | .ok h => decodeOperands h ws

/-! ## The opcode table's numbering -/

/-- The most words a command can have: `GTEXT` with 255 characters (R82). -/
def longestCommand : Nat := 259

/-- The words of an instruction numbered as spec/opcode_table.json numbers its bits: bit 0 is the least
significant bit of the first word, later words count on; every bit above `nbits` is 0. -/
def tableWords (nbits w : Nat) : List Word :=
  (List.range longestCommand).map (fun k => BitVec.ofNat 16 ((w % 2 ^ nbits) >>> (16 * k)))

/-- The instruction the decoder reads from a word of the opcode table. -/
def decodeTableWord (nbits w : Nat) : Option Instr :=
  match decode (tableWords nbits w) with
  | .done i _ => some i
  | _ => none

/-- Splits a word sequence before the word that ends its first command, by completing it or by failing a check:
the words up to there, and that word (`none` where the sequence ends first). -/
def splitAtLast (seen : List Word) : List Word → List Word × Option Word
  | [] => (seen, none)
  | w :: ws =>
    match decode (seen ++ [w]) with
    | .incomplete => splitAtLast (seen ++ [w]) ws
    | _ => (seen, some w)

/-! ## The encoder -/

/-- A header word from its opcode and short operand (R80). -/
def headerWord (op a : Byte) : Word := op ++ a

/-- The short operand that carries a flag (R85). -/
def flagField (f : Bool) : Byte := (0 : BitVec 7) ++ BitVec.ofBool f

/-- The short operand that carries a colour (R88). -/
def colourField (c : Colour) : Byte := (0 : BitVec 6) ++ c.code

/-- The short operand that carries the text and background colours (R88). -/
def coloursField (fg bg : Colour) : Byte := (0 : BitVec 4) ++ (bg.code ++ fg.code)

/-- A length or character word: bits 15:8 zero (R81). -/
def byteWord (b : Byte) : Word := (0 : Byte) ++ b

/-- The words of a command, in arrival order (R82, R90). -/
def encode : Instr → List Word
  | .setorient sel => [headerWord 0x01 sel]
  | .setpen f => [headerWord 0x02 (flagField f)]
  | .setinv f => [headerWord 0x03 (flagField f)]
  | .selfont sel => [headerWord 0x04 sel]
  | .setfsolid f => [headerWord 0x05 (flagField f)]
  | .setfspx v => [headerWord 0x06 v]
  | .setfspy v => [headerWord 0x07 v]
  | .getorient => [headerWord 0x10 0]
  | .sizex => [headerWord 0x11 0]
  | .sizey => [headerWord 0x12 0]
  | .getfont => [headerWord 0x13 0]
  | .fontmax => [headerWord 0x14 0]
  | .charszx => [headerWord 0x15 0]
  | .rdpix x y => [headerWord 0x16 0, x, y]
  | .clear c => [headerWord 0x20 (colourField c)]
  | .point x y c => [headerWord 0x21 (colourField c), x, y]
  | .line x1 y1 x2 y2 c => [headerWord 0x22 (colourField c), x1, y1, x2, y2]
  | .dline x0 y0 dx dy c => [headerWord 0x23 (colourField c), x0, y0, dx, dy]
  | .rect x1 y1 x2 y2 c => [headerWord 0x24 (colourField c), x1, y1, x2, y2]
  | .drect x0 y0 dx dy c => [headerWord 0x25 (colourField c), x0, y0, dx, dy]
  | .circle x0 y0 r c => [headerWord 0x26 (colourField c), x0, y0, r]
  | .gtext x0 y0 fg bg text =>
    headerWord 0x27 (coloursField fg bg) :: x0 :: y0 :: byteWord (BitVec.ofNat 8 text.length) :: text.map byteWord
  | .xfer => [headerWord 0x30 0]

/-- The format of a command (R82). -/
def Instr.format : Instr → Format
  | .setorient _ | .setpen _ | .setinv _ | .selfont _ | .setfsolid _ | .setfspx _ | .setfspy _ => .z
  | .getorient | .sizex | .sizey | .getfont | .fontmax | .charszx | .clear _ | .xfer => .z
  | .rdpix _ _ | .point _ _ _ => .p
  | .circle _ _ _ _ => .c
  | .line _ _ _ _ _ | .dline _ _ _ _ _ | .rect _ _ _ _ _ | .drect _ _ _ _ _ => .q
  | .gtext _ _ _ _ _ => .t

/-- The total length in words of a command of a format whose text has `n` characters (R82). -/
def Format.words (n : Nat) : Format → Nat
  | .z => 1
  | .p => 3
  | .c => 4
  | .q => 5
  | .t => 4 + n

/-- The number of characters a command carries: `n` of R82, 0 for all but `GTEXT`. -/
def Instr.textLength : Instr → Nat
  | .gtext _ _ _ _ text => text.length
  | _ => 0

/-! ## The opcode map as rows -/

/-- A row of R90: the header `w` selects it when `w & mask = match` and no colour field named by the extra
condition is 3 (`oneColour`: `a[1:0]`; `twoColours`: `a[3:2]` as well). -/
structure OpcodeRow where
  mnemonic   : String
  format     : Format
  matchBits  : Word
  mask       : Word
  oneColour  : Bool
  twoColours : Bool
deriving DecidableEq, Repr

/-- Whether a header selects a row (R90). -/
def OpcodeRow.selects (r : OpcodeRow) (w : Word) : Bool :=
  decide (w &&& r.mask = r.matchBits) && (!r.oneColour || decide (w.extractLsb' 0 2 ≠ 3))
    && (!r.twoColours || decide (w.extractLsb' 2 2 ≠ 3))

/-- The rows of the set and query commands (R90). -/
def configRows : List OpcodeRow :=
  [⟨"SETORIENT", .z, 0x0100, 0xFF00, false, false⟩, ⟨"SETPEN", .z, 0x0200, 0xFFFE, false, false⟩,
   ⟨"SETINV", .z, 0x0300, 0xFFFE, false, false⟩, ⟨"SELFONT", .z, 0x0400, 0xFF00, false, false⟩,
   ⟨"SETFSOLID", .z, 0x0500, 0xFFFE, false, false⟩, ⟨"SETFSPX", .z, 0x0600, 0xFF00, false, false⟩,
   ⟨"SETFSPY", .z, 0x0700, 0xFF00, false, false⟩, ⟨"GETORIENT", .z, 0x1000, 0xFFFF, false, false⟩,
   ⟨"SIZEX", .z, 0x1100, 0xFFFF, false, false⟩, ⟨"SIZEY", .z, 0x1200, 0xFFFF, false, false⟩,
   ⟨"GETFONT", .z, 0x1300, 0xFFFF, false, false⟩, ⟨"FONTMAX", .z, 0x1400, 0xFFFF, false, false⟩,
   ⟨"CHARSZX", .z, 0x1500, 0xFFFF, false, false⟩, ⟨"RDPIX", .p, 0x1600, 0xFFFF, false, false⟩]

/-- The rows of the drawing and transfer commands (R90). -/
def drawRows : List OpcodeRow :=
  [⟨"CLEAR", .z, 0x2000, 0xFFFC, true, false⟩, ⟨"POINT", .p, 0x2100, 0xFFFC, true, false⟩,
   ⟨"LINE", .q, 0x2200, 0xFFFC, true, false⟩, ⟨"DLINE", .q, 0x2300, 0xFFFC, true, false⟩,
   ⟨"RECT", .q, 0x2400, 0xFFFC, true, false⟩, ⟨"DRECT", .q, 0x2500, 0xFFFC, true, false⟩,
   ⟨"CIRCLE", .c, 0x2600, 0xFFFC, true, false⟩, ⟨"GTEXT", .t, 0x2700, 0xFFF0, true, true⟩,
   ⟨"XFER", .z, 0x3000, 0xFFFF, false, false⟩]

/-- The opcode map of R90. -/
def opcodeRows : List OpcodeRow := configRows ++ drawRows

/-- The mnemonic of a command (R90). -/
def Instr.mnemonic : Instr → String
  | .setorient _ => "SETORIENT"
  | .setpen _ => "SETPEN"
  | .setinv _ => "SETINV"
  | .selfont _ => "SELFONT"
  | .setfsolid _ => "SETFSOLID"
  | .setfspx _ => "SETFSPX"
  | .setfspy _ => "SETFSPY"
  | .getorient => "GETORIENT"
  | .sizex => "SIZEX"
  | .sizey => "SIZEY"
  | .getfont => "GETFONT"
  | .fontmax => "FONTMAX"
  | .charszx => "CHARSZX"
  | .rdpix _ _ => "RDPIX"
  | .clear _ => "CLEAR"
  | .point _ _ _ => "POINT"
  | .line _ _ _ _ _ => "LINE"
  | .dline _ _ _ _ _ => "DLINE"
  | .rect _ _ _ _ _ => "RECT"
  | .drect _ _ _ _ _ => "DRECT"
  | .circle _ _ _ _ => "CIRCLE"
  | .gtext _ _ _ _ _ => "GTEXT"
  | .xfer => "XFER"

/-! ## Assembler notation and pseudo-commands -/

/-- A colour by name (R94). -/
def Colour.name : Colour → String
  | .black => "BLACK"
  | .white => "WHITE"
  | .grey => "GREY"

/-- The operands of a command in the assembler's order and notation (R94): a coordinate, offset or size in signed
decimal, a flag as 0 or 1, a colour by name, a text as a list of codes. Log entry 22. -/
def Instr.operands : Instr → List String
  | .setorient sel | .selfont sel => [toString sel.toNat]
  | .setpen f | .setinv f | .setfsolid f => [if f then "1" else "0"]
  | .setfspx v | .setfspy v => [toString v.toNat]
  | .getorient | .sizex | .sizey | .getfont | .fontmax | .charszx | .xfer => []
  | .rdpix x y => [toString x.toInt, toString y.toInt]
  | .clear c => [c.name]
  | .point x y c => [toString x.toInt, toString y.toInt, c.name]
  | .line a b d e c | .dline a b d e c | .rect a b d e c | .drect a b d e c =>
    [toString a.toInt, toString b.toInt, toString d.toInt, toString e.toInt, c.name]
  | .circle x0 y0 r c => [toString x0.toInt, toString y0.toInt, toString r.toNat, c.name]
  | .gtext x0 y0 fg bg text =>
    [toString x0.toInt, toString y0.toInt, fg.name, bg.name,
      "[" ++ String.intercalate ", " (text.map (fun b => toString b.toNat)) ++ "]"]

/-- A command in assembler notation: the mnemonic, then the operands separated by commas (R94). -/
def Instr.assembly (i : Instr) : String :=
  if i.operands.isEmpty then i.mnemonic else i.mnemonic ++ " " ++ String.intercalate ", " i.operands

/-- The facade calls of R95 that are other names for commands of the block. `flush` stands for its step 2, the
only step the block takes part in (R224). -/
inductive Pseudo where
  | clear (c : Colour)
  | invert (f : Bool)
  | setOrientation (sel : Byte)
  | flush
deriving DecidableEq, Repr

/-- The expansion of a pseudo-command (R95). -/
def Pseudo.expand : Pseudo → List Instr
  | .clear c => [.clear c]
  | .invert f => [.setinv f]
  | .setOrientation sel => [.setorient sel]
  | .flush => [.xfer]

end Sys2Proof
end

