-- ==== Sys2Proof/Machine/State.lean ====
section
/-! DEFINITION. The state of the block (spec/10_state.md) as plain data, the reasons a step can stop, and the
state after reset. -/

namespace Sys2Proof.Machine

/-- The listed bytes of one plane as (index, byte) cells, indices strictly rising (`Memory.wf`). An index that is
not listed has not been written since reset: its byte is unspecified (R38), reads as the free value
`Config.planeByte`, and equals no value the model knows, so no listed cell can repeat it. Log entry 3. -/
abbrev Memory := List Host.Cell

/-- What the outside presents to the block (R67): a word on the command port, or an assertion of the reset input. -/
inductive PortEvent where
  | word (w : Word)
  | reset
deriving DecidableEq, Repr

/-- A record of the read-out port: `sel = 0` for a byte of `PREV`, `sel = 1` for a byte of `CUR` (R35). -/
structure PixRecord where
  sel  : BitVec 1
  byte : Byte
deriving DecidableEq, Repr

/-- A request on the font port (R67, R210). -/
inductive FontCall where
  | metrics (f : Nat)
  | glyphRow (f g i : Nat)
deriving DecidableEq, Repr

/-- The state of the block. `params` is the instance's configuration, which no step writes (R37, log entry 1);
`epoch`, `input` and `fontPort` are the model's own fields (log entries 4, 5, 11). -/
structure State where
  params   : Params
  epoch    : Nat
  cur      : Memory
  prev     : Memory
  orient   : BitVec 2
  pen      : Bool
  invert   : Bool
  font     : Byte
  fsolid   : Bool
  fspx     : Byte
  fspy     : Byte
  status   : BitVec 3
  asm      : List Word
  input    : List PortEvent
  rsp      : List Word
  pix      : List PixRecord
  fontPort : List FontCall
deriving DecidableEq, Repr

/-- Why the machine stops with a fault. -/
inductive Fault where
  /-- Raised by `step` alone: the block is faulted with this `FCAUSE` and the outside presents nothing more, so the
  run's outcome is the fault (R242, I9). Safe: a faulted block has no effect that is left out. Log entry 8. -/
  | faulted (fcause : BitVec 2)
deriving DecidableEq, Repr

/-- Why the machine does not go on, without a fault. -/
inductive Refusal where
  /-- Raised by an arm of `exec` whose instruction has no meaning yet. Safe: nothing is claimed of it. -/
  | notModelled (mnemonic : String)
  /-- Raised by `step` alone: the command port holds no word, so no step is possible until one arrives (R33, I10).
  Safe: the block waits. Log entry 7. -/
  | awaitingWord
  /-- Raised by `State.powerOn` alone: the parameters are outside the spec's ranges (R263). Safe: such an instance
  is outside the spec. Log entry 2. -/
  | illFormedParameters
deriving DecidableEq, Repr

/-- The state after the `epoch`-th assertion of reset of an instance (R38, R260): registers zero, buffer and streams
empty, no byte of either plane specified. -/
def State.afterReset (p : Params) (epoch : Nat) : State where
  params   := p
  epoch    := epoch
  cur      := []
  prev     := []
  orient   := 0
  pen      := false
  invert   := false
  font     := 0
  fsolid   := false
  fspx     := 0
  fspy     := 0
  status   := 0
  asm      := []
  input    := []
  rsp      := []
  pix      := []
  fontPort := []

/-- The state right after reset of the installed instance. `CIRCLE_FILL` is `bounding`, the value the spec asserts
(R5, R184); the rest of the instance is a free value (log entry 1). -/
def State.reset : State :=
  State.afterReset { Config.installed.params with circleFill := .bounding } 0

end Sys2Proof.Machine
end

