-- ==== Sys2Proof/Machine/Operands.lean ====
section
/-! DEFINITION. What an operand means: numbers (R81), the geometry and the logical extent (R2, R118), the selectors
(R111, R114), pixel addressing (R140, R52), colours (R142), and the font provider's answers (R200 to R204). -/

namespace Sys2Proof

/-! ## Geometry of the instance -/

/-- `BSH = ceil(H / 8)`: the bytes of a run (R2). -/
def Params.bsh (p : Params) : Nat := (p.h + 7) / 8

/-- `N = V * BSH`: the bytes of a plane (R2). -/
def Params.planeBytes (p : Params) : Nat := p.v * p.bsh

/-- `SizeX(o)` (R118). -/
def Params.sizeX (p : Params) (o : BitVec 2) : Nat := if o = 1 ∨ o = 3 then p.v else p.h

/-- `SizeY(o)` (R118). -/
def Params.sizeY (p : Params) (o : BitVec 2) : Nat := if o = 1 ∨ o = 3 then p.h else p.v

/-! ## The font provider -/

/-- `FONT_COUNT` (R4). -/
def Params.fontCount (p : Params) : Nat := p.fonts.length

/-- `metrics(f)` (R200). For `f >= FONT_COUNT`, which the block never asks (R203), a free value: log entry 12. -/
def Params.metrics (p : Params) (f : Nat) : Metrics :=
  match p.fonts[f]? with
  | some t => ⟨t.height, t.maxWidth, t.firstCode, t.glyphs.length⟩
  | none => Config.strayMetrics f

/-- `glyphRow(f, g, i)` (R200, R202). Outside the domain of R203, which the block never asks, a free value: log entry
12. -/
def Params.glyphRow (p : Params) (f g i : Nat) : Byte :=
  match p.fonts[f]? with
  | some t => (t.glyphs.getD g []).getD i (Config.strayRow f g i)
  | none => Config.strayRow f g i

/-- The glyph index of a character code, `none` where the character has no glyph (R204). -/
def Metrics.glyphIndex? (m : Metrics) (ch : Byte) : Option Nat :=
  if ch.toNat < m.firstCode ∨ m.firstCode + m.glyphCount ≤ ch.toNat then none else some (ch.toNat - m.firstCode)

/-- Whether a font is a two-byte font (R202). -/
def Metrics.twoByte (m : Metrics) : Bool := decide (8 < m.height)

namespace Machine

/-! ## Numbers -/

/-- `sext_16(w)`: a coordinate, size or offset operand (R81). -/
def sext16 (w : Word) : Int := w.toInt

/-- `zext_16(w)`: the radius operand (R81). -/
def zext16 (w : Word) : Nat := w.toNat

/-- The far end of a size operand, `x0 + dx - 1`, exact (R175, R9). -/
def farEnd (x0 dx : Word) : Int := sext16 x0 + sext16 dx - 1

/-! ## Selectors -/

/-- The orientation an orientation selector stores (R111). -/
def orientFor (p : Params) (sel : Byte) : BitVec 2 :=
  if sel.toNat ≤ 3 then sel.setWidth 2
  else if sel = 6 then (if p.h < p.v then 1 else 0)
  else if sel = 7 then (if p.v < p.h then 1 else 0)
  else 3

/-- The font number a font selector stores: `min(sel, FONT_COUNT - 1)` (R114). -/
def fontFor (p : Params) (sel : Byte) : Byte := BitVec.ofNat 8 (min sel.toNat (p.fontCount - 1))

/-- The response word of `FONTMAX`: `FONT_COUNT` (R123); where it does not fit 16 bits the rule states no word and
the word is free (log entry 10). -/
def fontCountWord (p : Params) : Word :=
  if p.fontCount < 65536 then BitVec.ofNat 16 p.fontCount else Config.fontCountTooWide p.fontCount

/-! ## Pixels -/

/-- A buffer pixel `(bx, by)` (R51): `run` is `bx`, `pos` is `by`. -/
structure BufferPixel where
  run : Nat
  pos : Nat
deriving DecidableEq, Repr

/-- `Map(o, x, y)` (R140); `none` is `OOB`. -/
def mapPixel (p : Params) (o : BitVec 2) (x y : Int) : Option BufferPixel :=
  if o = 0 then
    if 0 ≤ x ∧ x < p.h ∧ 0 ≤ y ∧ y < p.v then some ⟨y.toNat, x.toNat⟩ else none
  else if o = 1 then
    if 0 ≤ x ∧ x < p.v ∧ 0 ≤ y ∧ y < p.h then some ⟨x.toNat, (p.h - 1 - y).toNat⟩ else none
  else if o = 2 then
    if 0 ≤ x ∧ x < p.h ∧ 0 ≤ y ∧ y < p.v then some ⟨(p.v - 1 - y).toNat, (p.h - 1 - x).toNat⟩ else none
  else
    if 0 ≤ x ∧ x < p.v ∧ 0 ≤ y ∧ y < p.h then some ⟨(p.v - 1 - x).toNat, y.toNat⟩ else none

/-- A byte index and a bit number, 7 the most significant (R52). -/
structure BitAddress where
  idx : Nat
  bit : Nat
deriving DecidableEq, Repr

/-- `Addr(bx, by)` (R52). -/
def addr (p : Params) (q : BufferPixel) : BitAddress := ⟨q.run * p.bsh + q.pos / 8, 7 - q.pos % 8⟩

/-- `Resolve(c, bx, by)` (R142). -/
def resolve (c : Colour) (q : BufferPixel) : Colour :=
  match c with
  | .black => .black
  | .white => .white
  | .grey => if (q.run + q.pos) % 2 = 0 then .black else .white

/-- A logical position and the colour to plot there: the arguments of `Plot` (R143). -/
structure Dot where
  x : Int
  y : Int
  c : Colour
deriving DecidableEq, Repr

end Machine

end Sys2Proof
end

