-- ==== Sys2Proof/Machine/Flags.lean ====
section
/-! DEFINITION. The flags: the fields of STATUS and the pins it drives (R32), the polarity the invert flag gives a
stored bit (R143, R144), and the fill byte of `CLEAR` (R150). -/

namespace Sys2Proof.Machine

/-! ## STATUS -/

/-- The code of a fault cause (R243). -/
def causeCode : FaultCause → BitVec 2
  | .fOpcode => 1
  | .fReserved => 2

/-- STATUS with `FAULT = 1` (bit 0) and `FCAUSE` (bits 2:1) the cause (R32, R241). -/
def faultStatus (cause : FaultCause) : BitVec 3 := causeCode cause ++ (1 : BitVec 1)

/-- `CR.STATUS.FAULT`, which drives the pin `FAULT` (R32, R67). -/
def State.faulted (s : State) : Bool := s.status.getLsbD 0

/-- `CR.STATUS.FCAUSE`, which drives the pins `FCAUSE[1:0]` (R32, R67). -/
def State.fcause (s : State) : BitVec 2 := s.status.extractLsb' 1 2

/-- The values STATUS can hold: no fault, or a fault with cause 1 or 2; cause 3 is never produced (R32, R243). -/
def legalStatus (v : BitVec 3) : Bool := v == 0 || v == faultStatus .fOpcode || v == faultStatus .fReserved

/-! ## Polarity -/

/-- `effectiveWhite = (c2 = WHITE) xor (CR.INVERT = 1)` (R143), for a resolved colour. -/
def effectiveWhite (resolved : Colour) (invert : Bool) : Bool := xor (resolved == .white) invert

/-- `BitFor(c, bx, by)` (R144). -/
def bitFor (c : Colour) (q : BufferPixel) (invert : Bool) : Bool := !effectiveWhite (resolve c q) invert

/-- A byte with one bit cleared (physical white) or set (physical black), the other seven as before (R143, R60). -/
def storeBit (b : Byte) (bit : Nat) (white : Bool) : Byte :=
  if white then b &&& ~~~(1#8 <<< bit) else b ||| (1#8 <<< bit)

/-- The fill byte of `CLEAR c` in run `r` before inversion (R150). -/
def clearPattern (c : Colour) (r : Nat) : Byte :=
  match c with
  | .grey => if r % 2 = 0 then 0b10101010 else 0b01010101
  | .white => 0x00
  | .black => 0xFF

/-- The fill byte of `CLEAR c` in run `r` (R150): complemented when `CR.INVERT = 1`. -/
def clearByte (c : Colour) (invert : Bool) (r : Nat) : Byte :=
  if invert then clearPattern c r ^^^ 0xFF else clearPattern c r

end Sys2Proof.Machine
end

