-- ==== Sys2Proof/Machine/Ops.lean ====
section
/-! DEFINITION. The named operations over memory, registers and streams: bytes of a plane, the register writes, the
pixel write `Plot`, entering the fault (the block's only exception) and reset (its only exit), and power-on. -/

namespace Sys2Proof.Machine

/-! ## Memory -/

/-- The canonical form: indices strictly rising. Log entry 3. -/
abbrev Memory.wf (m : Memory) : Prop := m.Pairwise (fun c d => c.1 < d.1)

/-- Every listed index lies inside a plane of `n` bytes (R50, R53). -/
abbrev Memory.inside (n : Nat) (m : Memory) : Prop := ∀ c ∈ m, c.1 < n

/-- The byte listed at an index, `none` where none is. -/
def Memory.read? : Memory → Nat → Option Byte
  | [], _ => none
  | (a, b) :: m, i => if a = i then some b else Memory.read? m i

/-- Writes one byte, keeping the canonical form. -/
def Memory.write : Memory → Nat → Byte → Memory
  | [], i, v => [(i, v)]
  | (a, b) :: m, i, v =>
    if i < a then (i, v) :: (a, b) :: m
    else if i = a then (i, v) :: m
    else (a, b) :: Memory.write m i v

/-- The memory of `n` bytes whose byte at each index `i` is `f i`: every byte written (R58, byte write and copy). -/
def Memory.fill (n : Nat) (f : Nat → Byte) : Memory := (List.range n).map (fun i => (i, f i))

/-- `CUR[i]`; unspecified since reset where nothing has been written (R38, log entry 3). -/
def State.readCur (s : State) (i : Nat) : Byte :=
  (Memory.read? s.cur i).getD (Config.planeByte s.epoch .cur i)

/-- `PREV[i]`; unspecified since reset where nothing has been written (R38, log entry 3). -/
def State.readPrev (s : State) (i : Nat) : Byte :=
  (Memory.read? s.prev i).getD (Config.planeByte s.epoch .prev i)

/-- One bit of `CUR`. -/
def State.curBit (s : State) (a : BitAddress) : Bool := (s.readCur a.idx).getLsbD a.bit

/-- The bit of a buffer pixel of `CUR` (R58, bit read): 1 is physical black (R56). -/
def State.curPixel (s : State) (q : BufferPixel) : Bool := s.curBit (addr s.params q)

/-! ## Register, plane and stream updates -/

/-- Puts a plane in the place of `CUR`. -/
def State.setCur (s : State) (m : Memory) : State := { s with cur := m }

/-- Puts a plane in the place of `PREV`. -/
def State.setPrev (s : State) (m : Memory) : State := { s with prev := m }

/-- `CR.ORIENT <- v`. -/
def State.setOrient (s : State) (v : BitVec 2) : State := { s with orient := v }

/-- `CR.PEN <- v`. -/
def State.setPen (s : State) (v : Bool) : State := { s with pen := v }

/-- `CR.INVERT <- v`. -/
def State.setInvert (s : State) (v : Bool) : State := { s with invert := v }

/-- `CR.FONT <- v`. -/
def State.setFont (s : State) (v : Byte) : State := { s with font := v }

/-- `CR.FSOLID <- v`. -/
def State.setFsolid (s : State) (v : Bool) : State := { s with fsolid := v }

/-- `CR.FSPX <- v`. -/
def State.setFspx (s : State) (v : Byte) : State := { s with fspx := v }

/-- `CR.FSPY <- v`. -/
def State.setFspy (s : State) (v : Byte) : State := { s with fspy := v }

/-- `CR.STATUS <- v`. -/
def State.setStatus (s : State) (v : BitVec 3) : State := { s with status := v }

/-- Replaces the command-assembly buffer (R33). -/
def State.setAsm (s : State) (ws : List Word) : State := { s with asm := ws }

/-- Replaces the events the outside will present. -/
def State.setInput (s : State) (es : List PortEvent) : State := { s with input := es }

/-- `rsp.push(w)` (R34). -/
def State.pushRsp (s : State) (w : Word) : State := { s with rsp := s.rsp ++ [w] }

/-- Pushes records on `pix`, in order (R35). -/
def State.pushPix (s : State) (rs : List PixRecord) : State := { s with pix := s.pix ++ rs }

/-- Records requests on the font port, in order (R210). -/
def State.callFont (s : State) (cs : List FontCall) : State := { s with fontPort := s.fontPort ++ cs }

/-! ## Pixel writes -/

/-- `CUR[i] <- v`. -/
def State.writeCur (s : State) (i : Nat) (v : Byte) : State := s.setCur (Memory.write s.cur i v)

/-- Writes the bit of one buffer pixel of `CUR` (R58, bit write): clear for physical white, set for black. -/
def State.writePixel (s : State) (q : BufferPixel) (white : Bool) : State :=
  s.writeCur (addr s.params q).idx (storeBit (s.readCur (addr s.params q).idx) (addr s.params q).bit white)

/-- `Plot(x, y, c)`, the one pixel-write primitive (R143); out of bounds nothing changes (R145). -/
def State.plot (s : State) (d : Dot) : State :=
  match mapPixel s.params s.orient d.x d.y with
  | none => s
  | some q => s.writePixel q (effectiveWhite (resolve d.c q) s.invert)

/-- Plots positions one after the other. -/
def State.plotAll (s : State) (ds : List Dot) : State := ds.foldl State.plot s

/-- Positions in one colour, as arguments of `Plot`. -/
def paint (c : Colour) (ps : List (Int × Int)) : List Dot := ps.map (fun p => ⟨p.1, p.2, c⟩)

/-! ## The fault and reset -/

/-- Fault entry (R241): the command-assembly buffer is discarded, `FAULT` and `FCAUSE` are set, nothing else
changes. -/
def State.enterFault (s : State) (cause : FaultCause) : State := (s.setAsm []).setStatus (faultStatus cause)

/-- An assertion of the reset input (R260), the only way out of the fault (R242): the reset state, the planes
unspecified anew (log entry 4). What the outside presents afterwards is still to come (log entry 5). -/
def State.assertReset (s : State) : State := (State.afterReset s.params (s.epoch + 1)).setInput s.input

/-- Powering on an instance: its reset state, or a refusal where the parameters are outside the spec's ranges
(R260, R263). -/
def State.powerOn (p : Params) : Except Refusal State :=
  if p.wf then .ok (State.afterReset p 0) else .error .illFormedParameters

end Sys2Proof.Machine
end

