-- ==== Sys2Proof/Machine/ConfigQuery.lean ====
section
/-! DEFINITION. The set and query commands (spec/40_config_query.md): a set command writes the one register its
rule names, a query command appends one word to `rsp` (R110). -/

namespace Sys2Proof.Machine

/-- `SETORIENT sel` (R111). -/
def execSetorient (sel : Byte) (s : State) : Host.Outcome State Fault Refusal :=
  .next (s.setOrient (orientFor s.params sel))

/-- `SETPEN f` (R112). -/
def execSetpen (f : Bool) (s : State) : Host.Outcome State Fault Refusal := .next (s.setPen f)

/-- `SETINV f` (R113). -/
def execSetinv (f : Bool) (s : State) : Host.Outcome State Fault Refusal := .next (s.setInvert f)

/-- `SELFONT sel` (R114). -/
def execSelfont (sel : Byte) (s : State) : Host.Outcome State Fault Refusal := .next (s.setFont (fontFor s.params sel))

/-- `SETFSOLID f` (R115). -/
def execSetfsolid (f : Bool) (s : State) : Host.Outcome State Fault Refusal := .next (s.setFsolid f)

/-- `SETFSPX v` (R116). -/
def execSetfspx (v : Byte) (s : State) : Host.Outcome State Fault Refusal := .next (s.setFspx v)

/-- `SETFSPY v` (R117). -/
def execSetfspy (v : Byte) (s : State) : Host.Outcome State Fault Refusal := .next (s.setFspy v)

/-- `GETORIENT` (R119). -/
def execGetorient (s : State) : Host.Outcome State Fault Refusal := .next (s.pushRsp (s.orient.setWidth 16))

/-- `SIZEX` (R120). -/
def execSizex (s : State) : Host.Outcome State Fault Refusal :=
  .next (s.pushRsp (BitVec.ofNat 16 (s.params.sizeX s.orient)))

/-- `SIZEY` (R121). -/
def execSizey (s : State) : Host.Outcome State Fault Refusal :=
  .next (s.pushRsp (BitVec.ofNat 16 (s.params.sizeY s.orient)))

/-- `GETFONT` (R122). -/
def execGetfont (s : State) : Host.Outcome State Fault Refusal := .next (s.pushRsp (s.font.setWidth 16))

/-- `FONTMAX` (R123). -/
def execFontmax (s : State) : Host.Outcome State Fault Refusal := .next (s.pushRsp (fontCountWord s.params))

/-- `CHARSZX` (R124): one `metrics` request, then `maxWidth + CR.FSPX`. -/
def execCharszx (s : State) : Host.Outcome State Fault Refusal :=
  .next ((s.callFont [.metrics s.font.toNat]).pushRsp
    (BitVec.ofNat 16 ((s.params.metrics s.font.toNat).maxWidth + s.fspx.toNat)))

end Sys2Proof.Machine
end

