-- ==== Sys2Proof/Machine/Pixel.lean ====
section
/-! DEFINITION. The pixel commands (spec/41_pixel_ops.md): `POINT`, `RDPIX`, `CLEAR`. -/

namespace Sys2Proof.Machine

/-- `POINT x, y, c` (R146). -/
def execPoint (x y : Word) (c : Colour) (s : State) : Host.Outcome State Fault Refusal :=
  .next (s.plot ⟨sext16 x, sext16 y, c⟩)

/-- The answer of `RDPIX` (R147, R89): `0x0000` for a 1 bit (BLACK), `0x0001` for a 0 bit (WHITE), `0xFFFF` out of
bounds; `CR.INVERT` is not applied. -/
def State.pixelWord (s : State) (x y : Int) : Word :=
  match mapPixel s.params s.orient x y with
  | none => 0xFFFF
  | some q => if s.curPixel q then 0x0000 else 0x0001

/-- `RDPIX x, y` (R147). -/
def execRdpix (x y : Word) (s : State) : Host.Outcome State Fault Refusal :=
  .next (s.pushRsp (s.pixelWord (sext16 x) (sext16 y)))

/-- `CLEAR c` (R150): every byte of `CUR` is written with the fill byte of its run; the byte at index `i` lies in run
`i div BSH` (R51). Log entry 16. -/
def execClear (c : Colour) (s : State) : Host.Outcome State Fault Refusal :=
  .next (s.setCur (Memory.fill s.params.planeBytes (fun i => clearByte c s.invert (i / s.params.bsh))))

end Sys2Proof.Machine
end

