-- ==== Sys2Proof/Machine/Raster.lean ====
section
/-! DEFINITION. The RasterOps engine (spec/42_raster_ops.md): the logical positions that each primitive plots, in
the order of its pseudocode, and the commands that plot them. -/

namespace Sys2Proof.Machine

/-! ## Lines -/

/-- The `n` integers from `lo` up. -/
def upFrom (lo : Int) : Nat → List Int
  | 0 => []
  | n + 1 => lo :: upFrom (lo + 1) n

/-- The integers between `a` and `b` in either order, both included: `min(a, b) .. max(a, b)` (R172, R176). -/
def span (a b : Int) : List Int := upFrom (min a b) (max a b - min a b + 1).toNat

/-- The loop of the general line (R173): `n` positions still to plot, the iteration variable at `x`. -/
def bresenham (steep : Bool) (dx dy ystep : Int) : Nat → Int → Int → Int → List (Int × Int)
  | 0, _, _, _ => []
  | n + 1, x, y, err =>
    (if steep then (y, x) else (x, y)) ::
      (if err - dy < 0 then bresenham steep dx dy ystep n (x + 1) (y + ystep) (err - dy + dx)
       else bresenham steep dx dy ystep n (x + 1) y (err - dy))

/-- The general line after the axis swap: the end points are ordered on the iteration axis (R173). -/
def orderedLine (steep : Bool) (x1 y1 x2 y2 : Int) : List (Int × Int) :=
  if x2 < x1 then
    bresenham steep (x1 - x2) |y1 - y2| (if y2 < y1 then 1 else -1) (x1 - x2 + 1).toNat x2 y2 ((x1 - x2) / 2)
  else
    bresenham steep (x2 - x1) |y2 - y1| (if y1 < y2 then 1 else -1) (x2 - x1 + 1).toNat x1 y1 ((x2 - x1) / 2)

/-- The general line (R173): steep when the `y` difference is strictly the larger, and then the axes are swapped. -/
def generalLine (x1 y1 x2 y2 : Int) : List (Int × Int) :=
  if |x2 - x1| < |y2 - y1| then orderedLine true y1 x1 y2 x2 else orderedLine false x1 y1 x2 y2

/-- The positions of `DrawLine(x1, y1, x2, y2)` (R170): degenerate (R171), vertical, horizontal (R172), general
(R173), tested in this order. -/
def linePoints (x1 y1 x2 y2 : Int) : List (Int × Int) :=
  if x1 = x2 ∧ y1 = y2 then [(x1, y1)]
  else if x1 = x2 then (span y1 y2).map (fun y => (x1, y))
  else if y1 = y2 then (span x1 x2).map (fun x => (x, y1))
  else generalLine x1 y1 x2 y2

/-! ## Rectangles -/

/-- The positions of `FillRect` (R176). -/
def fillRectPoints (x1 y1 x2 y2 : Int) : List (Int × Int) :=
  (span x1 x2).flatMap (fun x => (span y1 y2).map (fun y => (x, y)))

/-- The positions of `DrawRect`: four border lines (R177). -/
def drawRectPoints (x1 y1 x2 y2 : Int) : List (Int × Int) :=
  linePoints x1 y1 x1 y2 ++ linePoints x1 y1 x2 y1 ++ linePoints x1 y2 x2 y2 ++ linePoints x2 y1 x2 y2

/-- The positions of a rectangle with the pen: solid fills, outline draws the border (R178). -/
def rectPoints (pen : Bool) (x1 y1 x2 y2 : Int) : List (Int × Int) :=
  if pen then fillRectPoints x1 y1 x2 y2 else drawRectPoints x1 y1 x2 y2

/-! ## Circles -/

/-- The variables of the midpoint iteration (R180). -/
structure Midpoint where
  f    : Int
  ddFx : Int
  ddFy : Int
  x    : Int
  y    : Int
deriving DecidableEq, Repr

/-- Their values before the loop (R180). -/
def midpointStart (r : Nat) : Midpoint := ⟨1 - r, 1, -2 * r, 0, r⟩

/-- The conditional half of the loop body: when `f >= 0`, `y` goes down by one (R180). -/
def midpointLowerY (m : Midpoint) : Midpoint :=
  if 0 ≤ m.f then { m with y := m.y - 1, ddFy := m.ddFy + 2, f := m.f + (m.ddFy + 2) } else m

/-- The other half: `x` goes up by one (R180). -/
def midpointRaiseX (m : Midpoint) : Midpoint :=
  { m with x := m.x + 1, ddFx := m.ddFx + 2, f := m.f + (m.ddFx + 2) }

/-- The loop body (R180). -/
def midpointNext (m : Midpoint) : Midpoint := midpointRaiseX (midpointLowerY m)

/-- The emitted pairs of at most `k` turns of the loop `while x < y` (R180). -/
def midpointLoop : Nat → Midpoint → List (Int × Int)
  | 0, _ => []
  | k + 1, m =>
    if m.x < m.y then ((midpointNext m).x, (midpointNext m).y) :: midpointLoop k (midpointNext m) else []

/-- The pairs the midpoint iteration emits for a radius (R180). The loop makes at most `r` turns: log entry 18. -/
def midpointPairs (r : Nat) : List (Int × Int) := midpointLoop r (midpointStart r)

/-- The values of `x` and `y` when the loop ends: the last emitted pair, or `(0, r)` when it never runs (R184). -/
def midpointEnd (r : Nat) : Int × Int := (midpointPairs r).getLastD (0, (r : Int))

/-- The four cardinal points (R181). -/
def cardinalPoints (x0 y0 r : Int) : List (Int × Int) := [(x0, y0 + r), (x0, y0 - r), (x0 + r, y0), (x0 - r, y0)]

/-- The eight symmetric points of an emitted pair (R181). -/
def eightPoints (x0 y0 x y : Int) : List (Int × Int) :=
  [(x0 + x, y0 + y), (x0 - x, y0 + y), (x0 + x, y0 - y), (x0 - x, y0 - y),
   (x0 + y, y0 + x), (x0 - y, y0 + x), (x0 + y, y0 - x), (x0 - y, y0 - x)]

/-- The positions of `DrawCircleOutline` (R181). -/
def circleOutlinePoints (x0 y0 : Int) (r : Nat) : List (Int × Int) :=
  cardinalPoints x0 y0 r ++ (midpointPairs r).flatMap (fun p => eightPoints x0 y0 p.1 p.2)

/-- The four spans of an emitted pair (R182). -/
def spanPoints (x0 y0 x y : Int) : List (Int × Int) :=
  linePoints (x0 + x) (y0 + y) (x0 - x) (y0 + y) ++ linePoints (x0 + x) (y0 - y) (x0 - x) (y0 - y)
    ++ linePoints (x0 + y) (y0 - x) (x0 + y) (y0 + x) ++ linePoints (x0 - y) (y0 - x) (x0 - y) (y0 + x)

/-- The final square of a solid circle (R184). -/
def finalFillPoints (fill : CircleFill) (x0 y0 : Int) (r : Nat) : List (Int × Int) :=
  match fill with
  | .bounding => fillRectPoints (x0 - r) (y0 - r) (x0 + r) (y0 + r)
  | .terminal =>
    fillRectPoints (x0 - (midpointEnd r).1) (y0 - (midpointEnd r).2) (x0 + (midpointEnd r).1) (y0 + (midpointEnd r).2)

/-- The positions of `DrawCircleSolid`: the spans (R182), then the final square (R184). -/
def circleSolidPoints (fill : CircleFill) (x0 y0 : Int) (r : Nat) : List (Int × Int) :=
  (midpointPairs r).flatMap (fun p => spanPoints x0 y0 p.1 p.2) ++ finalFillPoints fill x0 y0 r

/-- The positions of a circle with the pen (R185). -/
def circlePoints (fill : CircleFill) (pen : Bool) (x0 y0 : Int) (r : Nat) : List (Int × Int) :=
  if pen then circleSolidPoints fill x0 y0 r else circleOutlinePoints x0 y0 r

/-! ## The commands -/

/-- `LINE x1, y1, x2, y2, c` (R174). -/
def execLine (x1 y1 x2 y2 : Word) (c : Colour) (s : State) : Host.Outcome State Fault Refusal :=
  .next (s.plotAll (paint c (linePoints (sext16 x1) (sext16 y1) (sext16 x2) (sext16 y2))))

/-- `DLINE x0, y0, dx, dy, c` (R175). -/
def execDline (x0 y0 dx dy : Word) (c : Colour) (s : State) : Host.Outcome State Fault Refusal :=
  .next (s.plotAll (paint c (linePoints (sext16 x0) (sext16 y0) (farEnd x0 dx) (farEnd y0 dy))))

/-- `RECT x1, y1, x2, y2, c` (R178). -/
def execRect (x1 y1 x2 y2 : Word) (c : Colour) (s : State) : Host.Outcome State Fault Refusal :=
  .next (s.plotAll (paint c (rectPoints s.pen (sext16 x1) (sext16 y1) (sext16 x2) (sext16 y2))))

/-- `DRECT x0, y0, dx, dy, c` (R179). -/
def execDrect (x0 y0 dx dy : Word) (c : Colour) (s : State) : Host.Outcome State Fault Refusal :=
  .next (s.plotAll (paint c (rectPoints s.pen (sext16 x0) (sext16 y0) (farEnd x0 dx) (farEnd y0 dy))))

/-- `CIRCLE x0, y0, r, c` (R185). -/
def execCircle (x0 y0 r : Word) (c : Colour) (s : State) : Host.Outcome State Fault Refusal :=
  .next (s.plotAll (paint c (circlePoints s.params.circleFill s.pen (sext16 x0) (sext16 y0) (zext16 r))))

end Sys2Proof.Machine
end

