-- ==== Sys2Proof/Machine/Text.lean ====
section
/-! DEFINITION. The TextRenderer (spec/43_text.md): the dots that a text plots, in the order of R207, the font
port's requests (R210), and `GTEXT`. -/

namespace Sys2Proof.Machine

/-- The dot of one glyph bit, if any: the text colour for a set bit, the background colour for a clear bit where
`fill` says so (R206). -/
def bitDots (bit fill : Bool) (fg bg : Colour) (x y : Int) : List Dot :=
  if bit then [⟨x, y, fg⟩] else if fill then [⟨x, y, bg⟩] else []

/-- The loop of R206 for a column of a one-byte font. -/
def oneByteColumn (b0 : Byte) (fsolid : Bool) (fg bg : Colour) (x y0 : Int) : List Dot :=
  (List.range 8).flatMap (fun j => bitDots (b0.getLsbD j) fsolid fg bg x (y0 + j))

/-- The loop of R206 for a column of a two-byte font: the background of the second byte's rows is filled for bit
indices below 4 only. -/
def twoByteColumn (b0 b1 : Byte) (fsolid : Bool) (fg bg : Colour) (x y0 : Int) : List Dot :=
  (List.range 8).flatMap (fun j =>
    bitDots (b0.getLsbD j) fsolid fg bg x (y0 + j)
      ++ bitDots (b1.getLsbD j) (fsolid && decide (j < 4)) fg bg x (y0 + 8 + j))

/-- The dots of column `i` of glyph `g` at logical column `x` (R202, R206). -/
def columnDots (p : Params) (font : Nat) (fsolid : Bool) (fg bg : Colour) (g i : Nat) (x y0 : Int) : List Dot :=
  if (p.metrics font).twoByte then
    twoByteColumn (p.glyphRow font g (2 * i)) (p.glyphRow font g (2 * i + 1)) fsolid fg bg x y0
  else oneByteColumn (p.glyphRow font g i) fsolid fg bg x y0

/-- The dots of the character at position `k`: columns `maxWidth` apart from one character to the next, `CR.FSPX`
not added (R205); none for a character without a glyph (R204). -/
def charDots (p : Params) (font : Nat) (fsolid : Bool) (fg bg : Colour) (x0 y0 : Int) (k : Nat) (ch : Byte) : List Dot :=
  match (p.metrics font).glyphIndex? ch with
  | none => []
  | some g =>
    (List.range (p.metrics font).maxWidth).flatMap (fun (i : Nat) =>
      columnDots p font fsolid fg bg g i (x0 + ((p.metrics font).maxWidth : Int) * k + i) y0)

/-- The dots of a text whose first character stands at position `k` (R207). -/
def textDots (p : Params) (font : Nat) (fsolid : Bool) (fg bg : Colour) (x0 y0 : Int) : Nat → List Byte → List Dot
  | _, [] => []
  | k, ch :: text => charDots p font fsolid fg bg x0 y0 k ch ++ textDots p font fsolid fg bg x0 y0 (k + 1) text

/-- The `glyphRow` requests of one character: its row bytes in ascending index, none without a glyph (R210). -/
def charCalls (p : Params) (font : Nat) (ch : Byte) : List FontCall :=
  match (p.metrics font).glyphIndex? ch with
  | none => []
  | some g =>
    (List.range (if (p.metrics font).twoByte then 2 * (p.metrics font).maxWidth else (p.metrics font).maxWidth)).map
      (fun i => .glyphRow font g i)

/-- The font-port requests of one `GTEXT`: `metrics` once, then the characters' (R210). -/
def textCalls (p : Params) (font : Nat) (text : List Byte) : List FontCall :=
  .metrics font :: text.flatMap (charCalls p font)

/-- `GTEXT x0, y0, fg, bg, text` (R207). -/
def execGtext (x0 y0 : Word) (fg bg : Colour) (text : List Byte) (s : State) : Host.Outcome State Fault Refusal :=
  .next ((s.callFont (textCalls s.params s.font.toNat text)).plotAll
    (textDots s.params s.font.toNat s.fsolid fg bg (sext16 x0) (sext16 y0) 0 text))

end Sys2Proof.Machine
end

