-- ==== Sys2Proof/Machine/Transfer.lean ====
section
/-! DEFINITION. The transfer command (spec/44_transfer.md): `XFER`. -/

namespace Sys2Proof.Machine

/-- The records `XFER` sends: `PREV` in ascending index with `sel = 0`, then `CUR` with `sel = 1` (R220). -/
def State.readOut (s : State) : List PixRecord :=
  (List.range s.params.planeBytes).map (fun i => ⟨0, s.readPrev i⟩)
    ++ (List.range s.params.planeBytes).map (fun i => ⟨1, s.readCur i⟩)

/-- `XFER` (R220): the read-out, then the commit `PREV[i] <- CUR[i]`, unconditional (R222). Log entry 16. -/
def execXfer (s : State) : Host.Outcome State Fault Refusal :=
  .next ((s.pushPix s.readOut).setPrev (Memory.fill s.params.planeBytes s.readCur))

end Sys2Proof.Machine
end

