-- ==== Sys2Proof/Machine/Dispatch.lean ====
section
/-! DEFINITION. The meaning of each command, one arm per constructor of `Instr`. -/

namespace Sys2Proof.Machine

def exec (i : Instr) (s : State) : Host.Outcome State Fault Refusal :=
  match i with
  | .setorient sel => Sys2Proof.Machine.execSetorient sel s
  | .setpen f => Sys2Proof.Machine.execSetpen f s
  | .setinv f => Sys2Proof.Machine.execSetinv f s
  | .selfont sel => Sys2Proof.Machine.execSelfont sel s
  | .setfsolid f => Sys2Proof.Machine.execSetfsolid f s
  | .setfspx v => Sys2Proof.Machine.execSetfspx v s
  | .setfspy v => Sys2Proof.Machine.execSetfspy v s
  | .getorient => Sys2Proof.Machine.execGetorient s
  | .sizex => Sys2Proof.Machine.execSizex s
  | .sizey => Sys2Proof.Machine.execSizey s
  | .getfont => Sys2Proof.Machine.execGetfont s
  | .fontmax => Sys2Proof.Machine.execFontmax s
  | .charszx => Sys2Proof.Machine.execCharszx s
  | .rdpix x y => Sys2Proof.Machine.execRdpix x y s
  | .clear c => Sys2Proof.Machine.execClear c s
  | .point x y c => Sys2Proof.Machine.execPoint x y c s
  | .line x1 y1 x2 y2 c => Sys2Proof.Machine.execLine x1 y1 x2 y2 c s
  | .dline x0 y0 dx dy c => Sys2Proof.Machine.execDline x0 y0 dx dy c s
  | .rect x1 y1 x2 y2 c => Sys2Proof.Machine.execRect x1 y1 x2 y2 c s
  | .drect x0 y0 dx dy c => Sys2Proof.Machine.execDrect x0 y0 dx dy c s
  | .circle x0 y0 r c => Sys2Proof.Machine.execCircle x0 y0 r c s
  | .gtext x0 y0 fg bg text => Sys2Proof.Machine.execGtext x0 y0 fg bg text s
  | .xfer => Sys2Proof.Machine.execXfer s

end Sys2Proof.Machine
end

