-- ==== Sys2Proof/Machine/Port.lean ====
section
/-! DEFINITION. The command port: what the arrival of a word does (R33, R82, R83), what the block does when nothing
arrives, and how a word of the opcode table is laid on the port. -/

namespace Sys2Proof.Machine

/-- What an arriving word leads to: a state, with nothing to execute, or a complete command to execute. -/
inductive Arrival where
  | settled (s : State)
  | command (i : Instr) (s : State)
deriving DecidableEq, Repr

/-- The arrival of a word. A faulted block ignores it (R242). Otherwise it joins the assembly buffer: an incomplete
command waits (R33), a word that fails its check enters the fault at once (R83, R241), and the last word of a command
empties the buffer and gives the command to execute (R82, R33). Log entry 15. -/
def State.acceptWord (s : State) (w : Word) : Arrival :=
  if s.faulted then .settled s
  else
    match decode (s.asm ++ [w]) with
    | .incomplete => .settled (s.setAsm (s.asm ++ [w]))
    | .malformed cause => .settled (s.enterFault cause)
    | .done i _ => .command i (s.setAsm [])

/-- No event is left: a faulted block's run has the fault as its outcome (R242, I9), any other block waits for a word
(R33, R261, I10). Log entries 7 and 8. -/
def State.noInput (s : State) : Host.Outcome State Fault Refusal :=
  if s.faulted then .fault (.faulted s.fcause) else .refused .awaitingWord

/-- Lays the first command of a word sequence on the port: all its words but the last in the assembly buffer, as if
they had arrived, and the last as the next event, so that the next step completes it. Log entry 14. -/
def State.placeCommand (s : State) (ws : List Word) : State :=
  match splitAtLast [] ws with
  | (seen, some w) => (s.setAsm seen).setInput (.word w :: s.input)
  | (_, none) => s

end Sys2Proof.Machine
end

