-- ==== Sys2Proof/Machine/Step.lean ====
section
/-! DEFINITION. One step: the block takes the next event of its ports (log entry 6). -/

namespace Sys2Proof.Machine

/-- One step (R21, R33, R82, R260): an assertion of reset, or the arrival of one word, with the whole of the command
it completes; with no event left, `State.noInput`. -/
def step (s : State) : Host.Outcome State Fault Refusal :=
  match s.input with
  | [] => s.noInput
  | .reset :: rest => .next (s.setInput rest).assertReset
  | .word w :: rest =>
    match (s.setInput rest).acceptWord w with
    | .settled t => .next t
    | .command i t => exec i t

/-- The state with an instruction of the opcode table laid on the command port, so that the very next step runs it
(log entry 14). -/
def State.withFetchWord (s : State) (nbits w : Nat) : State := s.placeCommand (tableWords nbits w)

end Sys2Proof.Machine
end

