-- ==== Sys2Proof/Safety.lean ====
section
/-! DEFINITION. What holds of every state the block can be in, and what counts as a run without a fault. -/

namespace Sys2Proof.Machine

/-- The invariant of the block: an instance the spec admits (R263); both planes in canonical form inside their `N`
bytes (R50, R53); `FONT` below `FONT_COUNT` (R28); STATUS a legal value (R32); the assembly buffer a proper prefix of a
command (R33), and empty while faulted (R241, R242). -/
structure State.Inv (s : State) : Prop where
  paramsWf    : s.params.wf = true
  curWf       : Memory.wf s.cur
  curInside   : Memory.inside s.params.planeBytes s.cur
  prevWf      : Memory.wf s.prev
  prevInside  : Memory.inside s.params.planeBytes s.prev
  fontLegal   : s.font.toNat < s.params.fontCount
  statusLegal : legalStatus s.status = true
  asmPrefix   : decode s.asm = .incomplete
  asmFaulted  : s.faulted = true → s.asm = []

/-- The effect of a sequence of commands, executed one after the other (R21, R63). -/
def execAll : List Instr → State → Host.Outcome State Fault Refusal
  | [], s => .next s
  | i :: is, s =>
    match exec i s with
    | .next t => execAll is t
    | .fault r => .fault r
    | .refused r => .refused r

/-- A run of `k` steps that answers a next state and leaves the block not faulted: what a claim about a command
sequence takes as its premise (R242). -/
def State.runsSafely (s : State) (k : Nat) : Prop :=
  ∃ t, Host.Core.run Sys2Proof.core k s = .next t ∧ t.faulted = false

end Sys2Proof.Machine
end

