-- ==== Sys2Proof/Certificates/Slice0/Obligations.lean ====
section
/-! DEFINITION. The statements for the provers, one per numbered rule or group of rules of spec/, and the words they
are written in. -/

namespace Sys2Proof.Claims

open Sys2Proof.Machine

/-- The colour code of R84 as a word. -/
def codeWord : Colour → Word
  | .black => 0
  | .white => 1
  | .grey => 2

/-- STATUS after a fault, bit by bit (R32): `FCAUSE` in bits 2:1, `FAULT` in bit 0. -/
def statusAfter : FaultCause → BitVec 3
  | .fOpcode => 0b011
  | .fReserved => 0b101

/-- A header with this opcode whose short operand is not legal is malformed with `F_RESERVED`, whatever follows
(R92). -/
def reservedFaults (op : Byte) (legal : Byte → Prop) : Prop :=
  ∀ (a : Byte) (ws : List Word), ¬ legal a → decode (headerWord op a :: ws) = .malformed .fReserved

/-- A header with this opcode is a whole command whatever its short operand (R86). -/
def neverFaults (op : Byte) : Prop :=
  ∀ (a : Byte) (ws : List Word), ∃ i, decode (headerWord op a :: ws) = .done i ws

/-- A legal flag operand (R85). -/
def legalFlag (a : Byte) : Prop := a &&& 0xFE = 0

/-- A legal colour operand (R88, R84). -/
def legalColour (a : Byte) : Prop := a &&& 0xFC = 0 ∧ a &&& 0x03 ≠ 0x03

/-- A legal pair of colours for `GTEXT` (R88, R84). -/
def legalColours (a : Byte) : Prop := a &&& 0xF0 = 0 ∧ a &&& 0x03 ≠ 0x03 ∧ a &&& 0x0C ≠ 0x0C

/-- A legal short operand of a command without one (R87). -/
def legalNone (a : Byte) : Prop := a = 0

/-- `t` is `s` after every logical position of `S` was plotted in colour `c` (R143, R144): the bit of every pixel that
a position maps to is the bit of R144, every other bit of every byte of `CUR`, pad bits included, is as before, so
is every byte that holds no such bit, and nothing but `CUR` changed. -/
def Drawn (s t : State) (c : Colour) (S : Int → Int → Prop) : Prop :=
  t = { s with cur := t.cur } ∧
  (∀ x y q, S x y → mapPixel s.params s.orient x y = some q → t.curPixel q = bitFor c q s.invert) ∧
  (∀ a : BitAddress, (∀ x y q, S x y → mapPixel s.params s.orient x y = some q → a ≠ addr s.params q) →
    t.curBit a = s.curBit a) ∧
  (∀ i, (∀ x y q, S x y → mapPixel s.params s.orient x y = some q → (addr s.params q).idx ≠ i) →
    t.readCur i = s.readCur i)

/-- The logical extent as R118 has it. -/
def extentX (p : Params) (o : BitVec 2) : Nat := if o.toNat = 1 ∨ o.toNat = 3 then p.v else p.h

/-- The logical extent as R118 has it. -/
def extentY (p : Params) (o : BitVec 2) : Nat := if o.toNat = 1 ∨ o.toNat = 3 then p.h else p.v

/-- The bit of a glyph byte is plotted at all, and in this colour (R206): a set bit in the text colour, a clear bit in
the background colour where the background is filled. -/
def glyphBit (bit : Bool) (filled : Prop) (fg bg c : Colour) : Prop :=
  (bit = true ∧ c = fg) ∨ (bit = false ∧ filled ∧ c = bg)

/-- The logical positions and colours that `GTEXT` plots, as R204 to R207 have them: character `k` with code `ch` and
glyph `g`, column `i`, bit `j` of the column's byte or bytes. -/
def TextPixel (p : Params) (font : Nat) (fsolid : Bool) (x0 y0 : Int) (fg bg : Colour) (text : List Byte) (x y : Int)
    (c : Colour) : Prop :=
  ∃ (k i j g : Nat) (ch : Byte),
    text[k]? = some ch ∧ (p.metrics font).firstCode + g = ch.toNat ∧ g < (p.metrics font).glyphCount ∧
    i < (p.metrics font).maxWidth ∧ j < 8 ∧ x = x0 + (p.metrics font).maxWidth * k + i ∧
    (if (p.metrics font).height ≤ 8 then
      y = y0 + j ∧ glyphBit ((p.glyphRow font g i).getLsbD j) (fsolid = true) fg bg c
    else
      (y = y0 + j ∧ glyphBit ((p.glyphRow font g (2 * i)).getLsbD j) (fsolid = true) fg bg c) ∨
      (y = y0 + 8 + j ∧ glyphBit ((p.glyphRow font g (2 * i + 1)).getLsbD j) (fsolid = true ∧ j < 4) fg bg c))

/-- The rows of R90's table from `0x01` to `0x16`: mnemonic, format, match, mask. -/
def configTable : List (String × Format × Word × Word) :=
  [("SETORIENT", .z, 0x0100, 0xFF00), ("SETPEN", .z, 0x0200, 0xFFFE), ("SETINV", .z, 0x0300, 0xFFFE),
   ("SELFONT", .z, 0x0400, 0xFF00), ("SETFSOLID", .z, 0x0500, 0xFFFE), ("SETFSPX", .z, 0x0600, 0xFF00),
   ("SETFSPY", .z, 0x0700, 0xFF00), ("GETORIENT", .z, 0x1000, 0xFFFF), ("SIZEX", .z, 0x1100, 0xFFFF),
   ("SIZEY", .z, 0x1200, 0xFFFF), ("GETFONT", .z, 0x1300, 0xFFFF), ("FONTMAX", .z, 0x1400, 0xFFFF),
   ("CHARSZX", .z, 0x1500, 0xFFFF), ("RDPIX", .p, 0x1600, 0xFFFF)]

/-- The rows of R90's table from `0x20` on. Their extra condition: for `0x20` to `0x26`, `a[1:0] != 3`; for `GTEXT`,
`a[3:2] != 3` as well. -/
def drawTable : List (String × Format × Word × Word) :=
  [("CLEAR", .z, 0x2000, 0xFFFC), ("POINT", .p, 0x2100, 0xFFFC), ("LINE", .q, 0x2200, 0xFFFC),
   ("DLINE", .q, 0x2300, 0xFFFC), ("RECT", .q, 0x2400, 0xFFFC), ("DRECT", .q, 0x2500, 0xFFFC),
   ("CIRCLE", .c, 0x2600, 0xFFFC), ("GTEXT", .t, 0x2700, 0xFFF0), ("XFER", .z, 0x3000, 0xFFFF)]

/-- The queries of R34: the commands that answer a word. -/
def isQuery : Instr → Bool
  | .getorient | .sizex | .sizey | .getfont | .fontmax | .charszx | .rdpix _ _ => true
  | _ => false

/-- The byte that `CLEAR c` writes in run `r`, bit by bit as R150 has it. -/
def clearValue (c : Colour) (invert : Bool) (r : Nat) : Byte :=
  match c, invert with
  | .black, false | .white, true => 0xFF
  | .black, true | .white, false => 0x00
  | .grey, false => if r % 2 = 0 then 0xAA else 0x55
  | .grey, true => if r % 2 = 0 then 0x55 else 0xAA

/-- The point at turn `k` of a general line in closed form, on the axes (iteration axis, other axis): the end with the
smaller iteration coordinate is `(u1, v1)`, the other end `(u2, v2)`; the other axis moves by `k * |v2 - v1| / (u2 - u1)`
rounded as the error term of R173 rounds it. -/
def linePointAt (u1 v1 u2 v2 : Int) (k : Nat) : Int × Int :=
  (u1 + k, v1 + (if v1 < v2 then 1 else -1) * ((k * |v2 - v1| - (u2 - u1) / 2 + (u2 - u1) - 1) / (u2 - u1)))

/-- The same from the ends in either order. -/
def linePointBetween (u1 v1 u2 v2 : Int) (k : Nat) : Int × Int :=
  if u2 < u1 then linePointAt u2 v2 u1 v1 k else linePointAt u1 v1 u2 v2 k

end Sys2Proof.Claims

open Sys2Proof Sys2Proof.Machine Sys2Proof.Claims

/-! ## Encoding -/

/-- Decoding the encoding of a well-formed command gives the command back, with every operand at every value, and
leaves the words after it (R81, R82, R84 to R88, R90). -/
def Obligations.DecodeOfEncodeIsTheCommand : Prop :=
  ∀ (i : Instr) (rest : List Word), i.wf = true → decode (encode i ++ rest) = .done i rest

/-- Words that decode are the encoding of the well-formed command they decode to: no reserved encoding is aliased to
a command (R91, R92). -/
def Obligations.DecodedWordsAreTheEncoding : Prop :=
  ∀ (ws rest : List Word) (i : Instr), decode ws = .done i rest → i.wf = true ∧ ws = encode i ++ rest

/-- Every word sequence splits in exactly one way into complete commands and a tail that is empty or incomplete, or
that holds a word failing its check (R93). -/
def Obligations.WordStreamSplitsUniquely : Prop :=
  ∀ ws : List Word, ∃! p : List Instr × List Word,
    (∀ i ∈ p.1, i.wf = true) ∧ p.1.flatMap encode ++ p.2 = ws ∧
      (decode p.2 = .incomplete ∨ ∃ cause, decode p.2 = .malformed cause)

/-- R90: the 23 rows are those of the table; a header selects at most one; a header that selects a row begins commands
of that row's mnemonic and format, and a header that selects none is malformed whatever follows. -/
def Obligations.HeaderSelectsItsRow : Prop :=
  opcodeRows.map (fun r => (r.mnemonic, r.format, r.matchBits, r.mask)) = configTable ++ drawTable ∧
  (∀ r ∈ opcodeRows, ∀ w : Word, r.selects w = true ↔
    w &&& r.mask = r.matchBits ∧ (r.matchBits.high.toNat / 16 = 2 → w &&& 0x3 ≠ 0x3) ∧
      (r.mnemonic = "GTEXT" → w &&& 0xC ≠ 0xC)) ∧
  ∀ w : Word,
    (∀ r ∈ opcodeRows, ∀ r' ∈ opcodeRows, r.selects w = true → r'.selects w = true → r = r') ∧
    (∀ r ∈ opcodeRows, r.selects w = true → ∃ ws i, decode (w :: ws) = .done i []) ∧
    (∀ r ∈ opcodeRows, r.selects w = true → ∀ ws i rest, decode (w :: ws) = .done i rest →
      i.mnemonic = r.mnemonic ∧ i.format = r.format) ∧
    ((∀ r ∈ opcodeRows, r.selects w = false) → ∀ ws, ∃ cause, decode (w :: ws) = .malformed cause)

/-- R91: in a block that waits for a header, a header with an unassigned opcode enters the fault `F_OPCODE` at once,
whatever its short operand. -/
def Obligations.UnassignedOpcodeFaults : Prop :=
  ∀ (s : State) (w : Word) (rest : List PortEvent),
    s.faulted = false → s.asm = [] → s.input = .word w :: rest →
    (w.high.toNat = 0x00 ∨ (0x08 ≤ w.high.toNat ∧ w.high.toNat ≤ 0x0F) ∨ (0x17 ≤ w.high.toNat ∧ w.high.toNat ≤ 0x1F) ∨
      (0x28 ≤ w.high.toNat ∧ w.high.toNat ≤ 0x2F) ∨ 0x31 ≤ w.high.toNat) →
    step s = .next { s with input := rest, status := statusAfter .fOpcode }

/-- R92: `F_RESERVED` for an assigned opcode with a header that selects no row, for a length word and for a character
word with bits 15:8 set, each when that word arrives; the operand words of formats P, C and Q are all legal. -/
def Obligations.ReservedFieldFaults : Prop :=
  (∀ (s : State) (w : Word) (rest : List PortEvent), s.faulted = false → s.asm = [] → s.input = .word w :: rest →
    (∃ r ∈ opcodeRows, w.high = r.matchBits.high) → (∀ r ∈ opcodeRows, r.selects w = false) →
    step s = .next { s with input := rest, status := statusAfter .fReserved }) ∧
  (∀ (s : State) (a : Byte) (x0 y0 n : Word) (rest : List PortEvent), s.faulted = false → legalColours a →
    s.asm = [headerWord 0x27 a, x0, y0] → s.input = .word n :: rest → n.high ≠ 0 →
    step s = .next { s with input := rest, asm := [], status := statusAfter .fReserved }) ∧
  (∀ (s : State) (a : Byte) (x0 y0 n w : Word) (chars : List Word) (rest : List PortEvent), s.faulted = false →
    legalColours a → n.high = 0 → (∀ v ∈ chars, v.high = 0) → chars.length < n.toNat →
    s.asm = headerWord 0x27 a :: x0 :: y0 :: n :: chars → s.input = .word w :: rest → w.high ≠ 0 →
    step s = .next { s with input := rest, asm := [], status := statusAfter .fReserved }) ∧
  (∀ r ∈ opcodeRows, (r.format = .p ∨ r.format = .c ∨ r.format = .q) → ∀ w, r.selects w = true →
    ∀ ws : List Word, ws.length + 1 = r.format.words 0 → ∃ i, decode (w :: ws) = .done i [])

/-- What has been read as complete or as malformed is not changed by words that follow, so the fault reported is that of
the first malformed word (R244, R83). -/
def Obligations.LaterWordsDoNotChangeTheReading : Prop :=
  ∀ ws more : List Word,
    (∀ cause, decode ws = .malformed cause → decode (ws ++ more) = .malformed cause) ∧
    (∀ i rest, decode ws = .done i rest → decode (ws ++ more) = .done i (rest ++ more)) ∧
    (decode (ws ++ more) = .incomplete → decode ws = .incomplete)

/-- Words written out from the spec's examples decode to the commands they stand for (R94, R174, R185, R207). -/
def Obligations.SpecWordsDecode : Prop :=
  decode [0x0106] = .done (.setorient 6) [] ∧
  decode [0x1500] = .done .charszx [] ∧
  decode [0x2102, 0x0003, 0xFFFF] = .done (.point 3 (-1) .grey) [] ∧
  decode [0x2200, 0x0000, 0x0000, 0x0005, 0x0002] = .done (.line 0 0 5 2 .black) [] ∧
  decode [0x2600, 0x0005, 0x0005, 0x0003] = .done (.circle 5 5 3 .black) [] ∧
  decode [0x2704, 0x0000, 0x0000, 0x0002, 0x0041, 0x0042] = .done (.gtext 0 0 .black .white [0x41, 0x42]) [] ∧
  decode [0x3000] = .done .xfer []

/-! ## Steps -/

/-- When the words that have arrived and the next word read as a complete command, the step is `exec` of that command,
with the word taken and the assembly buffer emptied (R33, R82). -/
def Obligations.StepRunsTheDecodedCommand : Prop :=
  ∀ (s : State) (w : Word) (rest : List PortEvent) (i : Instr) (more : List Word),
    s.input = .word w :: rest → s.faulted = false → decode (s.asm ++ [w]) = .done i more →
    step s = exec i { s with input := rest, asm := [] }

/-- R82: the words of a command number as its format says; while they arrive nothing but the assembly buffer and the
port changes, and the last word executes the command; the next word is then the next header. -/
def Obligations.CommandExecutesOnItsLastWord : Prop :=
  ∀ (i : Instr) (s : State) (rest : List PortEvent),
    i.wf = true → s.faulted = false → s.asm = [] → s.input = (encode i).map .word ++ rest →
    (encode i).length = i.format.words i.textLength ∧
    (∀ k, k < (encode i).length → Host.Core.run Sys2Proof.core k s =
      .next { s with asm := (encode i).take k, input := ((encode i).drop k).map .word ++ rest }) ∧
    Host.Core.run Sys2Proof.core (encode i).length s = exec i { s with input := rest }

/-- R33: an incomplete command is held and has changed nothing else; the buffer is empty after reset, after a refused
command and after a completed one. -/
def Obligations.AssemblyBufferHoldsThePartialCommand : Prop :=
  (∀ (s : State) (w : Word) (rest : List PortEvent), s.input = .word w :: rest → s.faulted = false →
    decode (s.asm ++ [w]) = .incomplete → step s = .next { s with input := rest, asm := s.asm ++ [w] }) ∧
  (∀ (s t : State) (w : Word) (rest : List PortEvent), s.input = .word w :: rest → s.faulted = false →
    decode (s.asm ++ [w]) ≠ .incomplete → step s = .next t → t.asm = []) ∧
  (∀ (s t : State) (rest : List PortEvent), s.input = .reset :: rest → step s = .next t → t.asm = []) ∧
  State.reset.asm = []

/-- R241: a word that fails its check discards the assembly buffer and sets `FAULT` and `FCAUSE`, and changes nothing
else; the pins show the cause. -/
def Obligations.MalformedWordEntersTheFault : Prop :=
  ∀ (s : State) (w : Word) (rest : List PortEvent) (cause : FaultCause),
    s.input = .word w :: rest → s.faulted = false → decode (s.asm ++ [w]) = .malformed cause →
    step s = .next { s with input := rest, asm := [], status := statusAfter cause } ∧
    ∀ t, step s = .next t → t.faulted = true ∧ t.fcause = (if cause = .fOpcode then 1 else 2)

/-- R242: a faulted block ignores any number of words, with all state frozen; an assertion of reset, and nothing else,
leaves the fault, and makes the planes unspecified again (log entries 3 and 4). That its run ends in the fault when nothing more is
presented is the model's form of R242's fault outcome (log entry 8). -/
def Obligations.FaultedBlockIsFrozenUntilReset : Prop :=
  ∀ s : State, s.faulted = true →
    (∀ (ws : List Word) (rest : List PortEvent), s.input = ws.map .word ++ rest →
      Host.Core.run Sys2Proof.core ws.length s = .next { s with input := rest }) ∧
    (s.input = [] → step s = .fault (.faulted s.fcause)) ∧
    (∀ rest, s.input = .reset :: rest → ∃ t, step s = .next t ∧ t.faulted = false ∧
      ∀ k, t.readCur k = Config.planeByte (s.epoch + 1) .cur k ∧ t.readPrev k = Config.planeByte (s.epoch + 1) .prev k) ∧
    (∀ t, step s = .next t → t.faulted = false → ∃ rest, s.input = .reset :: rest)

/-- A block that is not faulted and is presented nothing makes no step: it waits for a word, which is no fault
(R33, R261). The refusal's name is the model's (log entry 7). -/
def Obligations.IdleBlockWaitsForAWord : Prop :=
  ∀ s : State, s.faulted = false → s.input = [] → step s = .refused .awaitingWord

/-- R260, R38: an assertion of reset gives, from every state, the reset state: registers and STATUS zero, assembly
buffer, `rsp` and `pix` empty, and every plane byte unspecified; that such a byte is the free value of the new epoch is
the model's choice (log entries 3 and 4). -/
def Obligations.ResetAssertionGivesTheResetState : Prop :=
  ∀ (s : State) (rest : List PortEvent), s.input = .reset :: rest →
    ∃ t, step s = .next t ∧ t.params = s.params ∧
      t.orient = 0 ∧ t.pen = false ∧ t.invert = false ∧ t.font = 0 ∧ t.fsolid = false ∧ t.fspx = 0 ∧ t.fspy = 0 ∧
      t.status = 0 ∧ t.asm = [] ∧ t.rsp = [] ∧ t.pix = [] ∧
      ∀ k, t.readCur k = Config.planeByte (s.epoch + 1) .cur k ∧ t.readPrev k = Config.planeByte (s.epoch + 1) .prev k

/-- R263 with R3, R4 and R201: powering on gives a state of the invariant for an instance whose parameters are in
range, and a refusal for every other. The clause on the glyph tables is the model's form of the provider (log entry
13). -/
def Obligations.PowerOnAdmitsLegalInstancesOnly : Prop :=
  ∀ p : Params,
    (p.wf = true ↔
      (1 ≤ p.v ∧ p.v ≤ 32767) ∧ (1 ≤ p.h ∧ p.h ≤ 32767) ∧ 1 ≤ p.fontCount ∧
      ∀ f ∈ p.fonts, (1 ≤ f.height ∧ f.height ≤ 16) ∧ f.maxWidth ≤ 255 ∧ f.firstCode ≤ 255 ∧ f.glyphs.length ≤ 256 ∧
        ∀ g ∈ f.glyphs, g.length = if f.height ≤ 8 then f.maxWidth else 2 * f.maxWidth) ∧
    (p.wf = true → ∃ s, State.powerOn p = .ok s ∧ s.params = p ∧ s.Inv) ∧
    (p.wf = false → State.powerOn p = .error .illFormedParameters)

/-- R246 with R21 and R63: the words of any sequence of well-formed commands, from a state that is not faulted and
waits for a header, execute the commands one after the other to the end, and the block is not faulted after it. -/
def Obligations.WellFormedSequenceNeverFaults : Prop :=
  ∀ (is : List Instr) (s : State) (rest : List PortEvent),
    (∀ i ∈ is, i.wf = true) → s.faulted = false → s.asm = [] → s.input = (is.flatMap encode).map .word ++ rest →
    ∃ t, execAll is { s with input := rest } = .next t ∧
      Host.Core.run Sys2Proof.core (is.flatMap encode).length s = .next t ∧
      t.faulted = false ∧ t.asm = [] ∧ t.input = rest

/-- R245: when a malformed command comes after complete ones, they have all executed, the malformed command has no
effect but the fault, and no word after it has any. -/
def Obligations.FaultIsPreciseAtCommands : Prop :=
  ∀ (is : List Instr) (bad more : List Word) (cause : FaultCause) (s : State) (rest : List PortEvent),
    (∀ i ∈ is, i.wf = true) → s.faulted = false → s.asm = [] →
    decode bad = .malformed cause → (∀ k, k < bad.length → decode (bad.take k) = .incomplete) →
    s.input = (is.flatMap encode ++ bad ++ more).map .word ++ rest →
    ∃ t, execAll is { s with input := rest } = .next t ∧
      Host.Core.run Sys2Proof.core (is.flatMap encode ++ bad ++ more).length s =
        .next { t with status := statusAfter cause }

/-! ## Invariants of the whole machine -/

/-- Every step keeps the invariant: legal parameters, planes in canonical form inside their `N` bytes (R53), `FONT`
below `FONT_COUNT` (R28), STATUS legal (R32), the buffer a proper prefix (R33). -/
def Obligations.EveryStepKeepsTheInvariant : Prop :=
  ∀ s t : State, s.Inv → step s = .next t → t.Inv

/-- The reset state meets the invariant. -/
def Obligations.ResetMeetsTheInvariant : Prop :=
  State.reset.Inv

/-- R37: no step changes a parameter. -/
def Obligations.ParametersNeverChange : Prop :=
  ∀ s t : State, step s = .next t → t.params = s.params

/-- R266: no command but `XFER` changes a byte of `PREV`; a step that changes `PREV` executes an `XFER` or asserts
reset. -/
def Obligations.OnlyXferWritesPrev : Prop :=
  (∀ (i : Instr) (s t : State), exec i s = .next t → i ≠ .xfer →
    t.prev = s.prev ∧ ∀ k, t.readPrev k = s.readPrev k) ∧
  (∀ s t : State, step s = .next t → t.prev ≠ s.prev →
    (∃ rest, s.input = .reset :: rest) ∨
    ∃ w rest more, s.input = .word w :: rest ∧ s.faulted = false ∧ decode (s.asm ++ [w]) = .done .xfer more)

/-- R34: a query appends exactly one word to `rsp`, every other command none; no command reads the stream. -/
def Obligations.OnlyQueriesAnswer : Prop :=
  (∀ (i : Instr) (s t : State), exec i s = .next t →
    ∃ new : List Word, new.length = (if isQuery i then 1 else 0) ∧ t.rsp = s.rsp ++ new ∧
      ∀ r, exec i { s with rsp := r } = .next { t with rsp := r ++ new }) ∧
  State.reset.rsp = []

/-- R35: only `XFER` appends to `pix`, records of `PREV` with `sel = 0` and of `CUR` with `sel = 1`; no command reads the
stream, which is empty after reset. -/
def Obligations.OnlyXferSendsRecords : Prop :=
  (∀ (i : Instr) (s t : State), exec i s = .next t →
    ∃ new : List PixRecord, (i ≠ .xfer → new = []) ∧ t.pix = s.pix ++ new ∧
      (∀ r ∈ new, (r.sel = 0 ∧ ∃ k, k < s.params.planeBytes ∧ r.byte = s.readPrev k) ∨
        (r.sel = 1 ∧ ∃ k, k < s.params.planeBytes ∧ r.byte = s.readCur k)) ∧
      ∀ r, exec i { s with pix := r } = .next { t with pix := r ++ new }) ∧
  State.reset.pix = []

/-- R26: only `RECT`, `DRECT` and `CIRCLE` read `CR.PEN`, and only `SETPEN` writes it. -/
def Obligations.PenIsReadByRectanglesAndCirclesOnly : Prop :=
  ∀ (i : Instr) (s t : State), exec i s = .next t → (∀ f, i ≠ .setpen f) →
    t.pen = s.pen ∧
    ((∀ a b d e c, i ≠ .rect a b d e c) → (∀ a b d e c, i ≠ .drect a b d e c) → (∀ a b d c, i ≠ .circle a b d c) →
      ∀ b, exec i { s with pen := b } = .next { t with pen := b })

/-- R27: the sets, the queries, `RDPIX` and `XFER` do not read `CR.INVERT`, and only `SETINV` writes it. -/
def Obligations.InvertIsReadByPixelWritesAndClearOnly : Prop :=
  ∀ (i : Instr) (s t : State), exec i s = .next t → (∀ f, i ≠ .setinv f) →
    t.invert = s.invert ∧
    (isQuery i = true ∨ i = .xfer ∨ (∃ v, i = .setorient v) ∨ (∃ f, i = .setpen f) ∨
      (∃ v, i = .selfont v) ∨ (∃ f, i = .setfsolid f) ∨ (∃ v, i = .setfspx v) ∨ (∃ v, i = .setfspy v) →
      ∀ b, exec i { s with invert := b } = .next { t with invert := b })

/-- R30, R31, R116: `CR.FSPX` is read by `CHARSZX` alone, so that a text is drawn the same for every value of it, and
`CR.FSPY` is read by nothing. -/
def Obligations.SpacingIsReadByCharszxOnly : Prop :=
  ∀ (i : Instr) (s t : State), exec i s = .next t →
    (i ≠ .charszx → (∀ v, i ≠ .setfspx v) → ∀ v, exec i { s with fspx := v } = .next { t with fspx := v }) ∧
    ((∀ v, i ≠ .setfspy v) → ∀ v, exec i { s with fspy := v } = .next { t with fspy := v })

/-! ## Set and query commands -/

/-- R111: `SETORIENT` stores a legal selector, turns 6 and 7 into 0 or 1 by the extents, and gives 3 for every other
selector; it writes nothing else and no short operand is malformed. -/
def Obligations.SetorientSelectsOrClamps : Prop :=
  (∀ (sel : Byte) (s : State), ∃ o : BitVec 2,
    exec (.setorient sel) s = .next { s with orient := o } ∧
    (sel.toNat ≤ 3 → o.toNat = sel.toNat) ∧
    (sel.toNat = 6 → o.toNat = if s.params.v > s.params.h then 1 else 0) ∧
    (sel.toNat = 7 → o.toNat = if s.params.v < s.params.h then 1 else 0) ∧
    (sel.toNat = 4 ∨ sel.toNat = 5 ∨ 8 ≤ sel.toNat → o.toNat = 3) ∧
    encode (.setorient sel) = [0x0100 ||| sel.setWidth 16]) ∧
  neverFaults 0x01

/-- R112, R113, R115: each flag command writes its one flag, and a short operand with any of bits 7:1 set is
malformed. -/
def Obligations.FlagCommandsWriteTheirFlag : Prop :=
  (∀ (f : Bool) (s : State),
    exec (.setpen f) s = .next { s with pen := f } ∧ encode (.setpen f) = [if f then 0x0201 else 0x0200] ∧
    exec (.setinv f) s = .next { s with invert := f } ∧ encode (.setinv f) = [if f then 0x0301 else 0x0300] ∧
    exec (.setfsolid f) s = .next { s with fsolid := f } ∧ encode (.setfsolid f) = [if f then 0x0501 else 0x0500]) ∧
  reservedFaults 0x02 legalFlag ∧ reservedFaults 0x03 legalFlag ∧ reservedFaults 0x05 legalFlag

/-- R114: `SELFONT` stores `min(sel, FONT_COUNT - 1)`. -/
def Obligations.SelfontClamps : Prop :=
  (∀ (sel : Byte) (s : State),
    ∃ f : Byte, exec (.selfont sel) s = .next { s with font := f } ∧ f.toNat = min sel.toNat (s.params.fontCount - 1) ∧
      encode (.selfont sel) = [0x0400 ||| sel.setWidth 16]) ∧
  neverFaults 0x04

/-- R116, R117: `SETFSPX` and `SETFSPY` store the whole short operand in their register. -/
def Obligations.SpacingCommandsStoreTheirValue : Prop :=
  (∀ (v : Byte) (s : State),
    exec (.setfspx v) s = .next { s with fspx := v } ∧ encode (.setfspx v) = [0x0600 ||| v.setWidth 16] ∧
    exec (.setfspy v) s = .next { s with fspy := v } ∧ encode (.setfspy v) = [0x0700 ||| v.setWidth 16]) ∧
  neverFaults 0x06 ∧ neverFaults 0x07

/-- R118 to R121: `GETORIENT`, `SIZEX` and `SIZEY` answer the orientation and the logical extents under it and change
nothing else; the extents swap between orientations 0 and 1. -/
def Obligations.ExtentQueriesAnswer : Prop :=
  (∀ s : State, s.params.wf = true →
    (∃ w : Word, exec .getorient s = .next { s with rsp := s.rsp ++ [w] } ∧ w.toNat = s.orient.toNat) ∧
    (∃ w : Word, exec .sizex s = .next { s with rsp := s.rsp ++ [w] } ∧ w.toNat = extentX s.params s.orient) ∧
    (∃ w : Word, exec .sizey s = .next { s with rsp := s.rsp ++ [w] } ∧ w.toNat = extentY s.params s.orient)) ∧
  (∀ p : Params, p.sizeX 0 = p.sizeY 1 ∧ p.sizeY 0 = p.sizeX 1) ∧
  encode .getorient = [0x1000] ∧ encode .sizex = [0x1100] ∧ encode .sizey = [0x1200] ∧
  reservedFaults 0x10 legalNone ∧ reservedFaults 0x11 legalNone ∧ reservedFaults 0x12 legalNone

/-- R122 to R124: `GETFONT` answers `CR.FONT`, `FONTMAX` answers `FONT_COUNT` (where it fits a word; where it does not
the word is free, log entry 10), `CHARSZX` answers `maxWidth + CR.FSPX`, not reduced to 8 bits. `CHARSZX` also records
its request on the font port (log entry 11). -/
def Obligations.FontQueriesAnswer : Prop :=
  (∀ s : State, s.params.wf = true → s.font.toNat < s.params.fontCount →
    (∃ w : Word, exec .getfont s = .next { s with rsp := s.rsp ++ [w] } ∧ w.toNat = s.font.toNat) ∧
    (∃ w : Word, exec .fontmax s = .next { s with rsp := s.rsp ++ [w] } ∧
      (s.params.fontCount < 65536 → w.toNat = s.params.fontCount)) ∧
    (∃ w : Word, exec .charszx s =
        .next { s with rsp := s.rsp ++ [w], fontPort := s.fontPort ++ [.metrics s.font.toNat] } ∧
      w.toNat = (s.params.metrics s.font.toNat).maxWidth + s.fspx.toNat)) ∧
  encode .getfont = [0x1300] ∧ encode .fontmax = [0x1400] ∧ encode .charszx = [0x1500] ∧
  reservedFaults 0x13 legalNone ∧ reservedFaults 0x14 legalNone ∧ reservedFaults 0x15 legalNone

/-! ## Pixels -/

/-- R141: under every orientation the mapper is a bijection from the logical rectangle onto the plane's pixels and out
of bounds outside it, with the inverses of the table. -/
def Obligations.MapIsABijection : Prop :=
  ∀ (p : Params) (o : BitVec 2),
    (∀ x y : Int, (∃ q, mapPixel p o x y = some q) ↔
      (0 ≤ x ∧ x < extentX p o ∧ 0 ≤ y ∧ y < extentY p o)) ∧
    (∀ x y q, mapPixel p o x y = some q → q.run < p.v ∧ q.pos < p.h) ∧
    (∀ q : BufferPixel, q.run < p.v → q.pos < p.h →
      (∃! xy : Int × Int, mapPixel p o xy.1 xy.2 = some q) ∧
      mapPixel p 0 q.pos q.run = some q ∧
      mapPixel p 1 q.run (p.h - 1 - q.pos) = some q ∧
      mapPixel p 2 (p.h - 1 - q.pos) (p.v - 1 - q.run) = some q ∧
      mapPixel p 3 (p.v - 1 - q.run) q.pos = some q)

/-- R52, R53, R54: `Addr` is `(bx * BSH + by div 8, 7 - by mod 8)` with `BSH = ceil(H / 8)`; a pixel's byte lies inside the
plane, and two different pixels never share a bit. -/
def Obligations.PixelAddressesAreDistinctAndInside : Prop :=
  ∀ p : Params,
    (8 * p.bsh < p.h + 8 ∧ p.h ≤ 8 * p.bsh) ∧ p.planeBytes = p.v * p.bsh ∧
    (∀ q : BufferPixel, q.run < p.v → q.pos < p.h →
      (addr p q).idx = q.run * p.bsh + q.pos / 8 ∧ (addr p q).bit = 7 - q.pos % 8 ∧
      (addr p q).idx < p.planeBytes ∧ (addr p q).bit ≤ 7) ∧
    (∀ q q' : BufferPixel, q.run < p.v → q.pos < p.h → q'.run < p.v → q'.pos < p.h → addr p q = addr p q' → q = q')

/-- R146 with R143 to R145: `POINT` plots its one position and nothing else; out of bounds it changes nothing; a GREY
point stores the bit by the parity of `bx + by`, which is the stated function of `x`, `y`, `V`, `H` and the
orientation. -/
def Obligations.PointPlotsItsPixel : Prop :=
  (∀ (x y : Word) (c : Colour) (s : State),
    (∃ t, exec (.point x y c) s = .next t ∧ Drawn s t c (fun a b => a = x.toInt ∧ b = y.toInt)) ∧
    (mapPixel s.params s.orient x.toInt y.toInt = none → exec (.point x y c) s = .next s) ∧
    (∀ q, mapPixel s.params s.orient x.toInt y.toInt = some q →
      bitFor .black q s.invert = !s.invert ∧ bitFor .white q s.invert = s.invert ∧
      bitFor .grey q s.invert = (decide ((q.run + q.pos) % 2 = 0) ^^ s.invert) ∧
      ((q.run + q.pos : Nat) : Int) =
        (if s.orient = 0 then x.toInt + y.toInt
         else if s.orient = 1 then x.toInt + s.params.h - 1 - y.toInt
         else if s.orient = 2 then s.params.v + s.params.h - 2 - x.toInt - y.toInt
         else s.params.v - 1 - x.toInt + y.toInt)) ∧
    encode (.point x y c) = [0x2100 ||| codeWord c, x, y]) ∧
  reservedFaults 0x21 legalColour

/-- R147: `RDPIX` answers `0x0000` for a 1 bit, `0x0001` for a 0 bit, whatever `CR.INVERT` holds, and `0xFFFF` out of
bounds; nothing else changes. -/
def Obligations.RdpixReportsThePhysicalBit : Prop :=
  (∀ (x y : Word) (s : State),
    (mapPixel s.params s.orient x.toInt y.toInt = none →
      exec (.rdpix x y) s = .next { s with rsp := s.rsp ++ [0xFFFF] }) ∧
    (∀ q, mapPixel s.params s.orient x.toInt y.toInt = some q →
      exec (.rdpix x y) s = .next { s with rsp := s.rsp ++
        [if (s.readCur (addr s.params q).idx).getLsbD (addr s.params q).bit then 0x0000 else 0x0001] }) ∧
    encode (.rdpix x y) = [0x1600, x, y]) ∧
  reservedFaults 0x16 legalNone

/-- R148: reading back an in-bounds point answers by its colour and the `CR.INVERT` at the `POINT`; a `SETINV` in
between does not change the answer. -/
def Obligations.WriteThenReadLaw : Prop :=
  ∀ (x y : Word) (c : Colour) (b : Bool) (s t : State) (q : BufferPixel),
    mapPixel s.params s.orient x.toInt y.toInt = some q → exec (.point x y c) s = .next t →
    exec (.rdpix x y) { t with invert := b } =
      .next { t with invert := b, rsp := t.rsp ++ [
        match c with
        | .black => if s.invert then 0x0001 else 0x0000
        | .white => if s.invert then 0x0000 else 0x0001
        | .grey => if decide ((q.run + q.pos) % 2 = 0) = s.invert then 0x0001 else 0x0000] }

/-- R150: `CLEAR` writes every byte of every run of `CUR`, pad bits included, with the fill byte of the colour, the run
and `CR.INVERT`, and changes nothing else. -/
def Obligations.ClearFillsEveryByte : Prop :=
  (∀ (c : Colour) (s : State), s.Inv →
    (∃ t, exec (.clear c) s = .next t ∧ t = { s with cur := t.cur } ∧
      (∀ r k, r < s.params.v → k < s.params.bsh → t.readCur (r * s.params.bsh + k) = clearValue c s.invert r) ∧
      (∀ i, s.params.planeBytes ≤ i → t.readCur i = s.readCur i)) ∧
    encode (.clear c) = [0x2000 ||| codeWord c]) ∧
  reservedFaults 0x20 legalColour

/-- R151: after `CLEAR c` every pixel has the bit that plotting `c` there stores, and so the bits of all pixels are
those that plotting `c` at every logical position gives, under any orientation. -/
def Obligations.ClearLaw : Prop :=
  ∀ (c : Colour) (s t : State), exec (.clear c) s = .next t →
    ∀ q : BufferPixel, q.run < s.params.v → q.pos < s.params.h →
      t.curPixel q = bitFor c q s.invert ∧
      ∀ (o : BitVec 2) (u : State), u = { s with orient := o } →
        (u.plotAll (paint c (fillRectPoints 0 0 (u.params.sizeX o - 1) (u.params.sizeY o - 1)))).curPixel q = t.curPixel q

/-- R152: what `RDPIX` answers at an in-bounds position after a `CLEAR`, for each colour and each value of `CR.INVERT`. -/
def Obligations.ClearThenReadLaw : Prop :=
  ∀ (c : Colour) (s t : State) (x y : Word) (q : BufferPixel), exec (.clear c) s = .next t →
    mapPixel s.params s.orient x.toInt y.toInt = some q →
    exec (.rdpix x y) t = .next { t with rsp := t.rsp ++ [
      match c with
      | .black => if s.invert then 0x0001 else 0x0000
      | .white => if s.invert then 0x0000 else 0x0001
      | .grey => if decide ((q.run + q.pos) % 2 = 0) = s.invert then 0x0001 else 0x0000] }

/-- R55: no command but `CLEAR` changes a bit of `CUR` that belongs to no pixel, and no command but `CLEAR` and the
drawing commands changes `CUR` at all. -/
def Obligations.PadBitsAreWrittenByClearOnly : Prop :=
  ∀ (i : Instr) (s t : State), exec i s = .next t → (∀ c, i ≠ .clear c) →
    (∀ a : BitAddress, (∀ q : BufferPixel, q.run < s.params.v → q.pos < s.params.h → a ≠ addr s.params q) →
      t.curBit a = s.curBit a) ∧
    (isQuery i = true ∨ i = .xfer ∨ i.format = .z → t.cur = s.cur)

/-- R186: positions outside the logical rectangle can be left out of any sequence of plots. -/
def Obligations.ClippingIsExact : Prop :=
  ∀ (s : State) (ds : List Dot),
    s.plotAll ds = s.plotAll (ds.filter (fun d =>
      decide (0 ≤ d.x ∧ d.x < extentX s.params s.orient ∧ 0 ≤ d.y ∧ d.y < extentY s.params s.orient)))

/-- R144, I12: in one colour the order and the repetition of positions do not show in any byte of `CUR`. -/
def Obligations.PlotOrderDoesNotShow : Prop :=
  ∀ (s : State) (c : Colour) (ps ps' : List (Int × Int)), (∀ p, p ∈ ps ↔ p ∈ ps') →
    ∀ k, (s.plotAll (paint c ps)).readCur k = (s.plotAll (paint c ps')).readCur k

/-! ## Lines, rectangles, circles -/

/-- R174 with R170: `LINE` plots the positions of `DrawLine` and nothing else. -/
def Obligations.LinePlotsItsPositions : Prop :=
  (∀ (x1 y1 x2 y2 : Word) (c : Colour) (s : State),
    (∃ t, exec (.line x1 y1 x2 y2 c) s = .next t ∧
      Drawn s t c (fun a b => (a, b) ∈ linePoints x1.toInt y1.toInt x2.toInt y2.toInt)) ∧
    encode (.line x1 y1 x2 y2 c) = [0x2200 ||| codeWord c, x1, y1, x2, y2]) ∧
  reservedFaults 0x22 legalColour

/-- R171: a line with equal ends plots its one position once, and a `LINE` with equal ends does what the `POINT`
does. -/
def Obligations.DegenerateLineIsThePoint : Prop :=
  (∀ (x y : Int) (c : Colour) (s : State), s.plotAll (paint c (linePoints x y x y)) = s.plot ⟨x, y, c⟩) ∧
  ∀ (x y : Word) (c : Colour) (s : State), exec (.line x y x y c) s = exec (.point x y c) s

/-- R172: a vertical or horizontal line plots every position between its ends, both included, each once. -/
def Obligations.AxisParallelLinePositions : Prop :=
  ∀ x1 y1 x2 y2 : Int,
    (y1 ≠ y2 →
      (∀ a b, (a, b) ∈ linePoints x1 y1 x1 y2 ↔ a = x1 ∧ min y1 y2 ≤ b ∧ b ≤ max y1 y2) ∧
      ((linePoints x1 y1 x1 y2).length : Int) = |y2 - y1| + 1) ∧
    (x1 ≠ x2 →
      (∀ a b, (a, b) ∈ linePoints x1 y1 x2 y1 ↔ b = y1 ∧ min x1 x2 ≤ a ∧ a ≤ max x1 x2) ∧
      ((linePoints x1 y1 x2 y1).length : Int) = |x2 - x1| + 1)

/-- R173 in closed form: the point at every turn of a general line, steep or not, from the end with the smaller
iteration coordinate. -/
def Obligations.GeneralLineClosedForm : Prop :=
  ∀ x1 y1 x2 y2 : Int, x1 ≠ x2 → y1 ≠ y2 →
    (|y2 - y1| ≤ |x2 - x1| →
      ((linePoints x1 y1 x2 y2).length : Int) = |x2 - x1| + 1 ∧
      ∀ k : Nat, (k : Int) ≤ |x2 - x1| →
        (linePoints x1 y1 x2 y2)[k]? = some (linePointBetween x1 y1 x2 y2 k)) ∧
    (|x2 - x1| < |y2 - y1| →
      ((linePoints x1 y1 x2 y2).length : Int) = |y2 - y1| + 1 ∧
      ∀ k : Nat, (k : Int) ≤ |y2 - y1| →
        (linePoints x1 y1 x2 y2)[k]? =
          some ((linePointBetween y1 x1 y2 x2 k).2, (linePointBetween y1 x1 y2 x2 k).1))

/-- The properties R173 derives: a line has `max(|x2 - x1|, |y2 - y1|) + 1` positions, both ends among them, and the
same positions from either end. -/
def Obligations.LineJoinsItsEnds : Prop :=
  ∀ x1 y1 x2 y2 : Int,
    ((linePoints x1 y1 x2 y2).length : Int) = max |x2 - x1| |y2 - y1| + 1 ∧
    (x1, y1) ∈ linePoints x1 y1 x2 y2 ∧ (x2, y2) ∈ linePoints x1 y1 x2 y2 ∧
    ∀ p, p ∈ linePoints x1 y1 x2 y2 ↔ p ∈ linePoints x2 y2 x1 y1

/-- R175: `DLINE` draws the line from its origin to `(x0 + dx - 1, y0 + dy - 1)`, exact, with no special case. -/
def Obligations.DlineDrawsToTheFarEnd : Prop :=
  (∀ (x0 y0 dx dy : Word) (c : Colour) (s : State),
    (∃ t, exec (.dline x0 y0 dx dy c) s = .next t ∧
      Drawn s t c (fun a b =>
        (a, b) ∈ linePoints x0.toInt y0.toInt (x0.toInt + dx.toInt - 1) (y0.toInt + dy.toInt - 1))) ∧
    encode (.dline x0 y0 dx dy c) = [0x2300 ||| codeWord c, x0, y0, dx, dy]) ∧
  reservedFaults 0x23 legalColour

/-- R178 with R176 and R177: `RECT` plots, with the solid pen, every position of the inclusive range between its
corners in any order, and with the outline pen those on its border; nothing else. -/
def Obligations.RectFillsOrOutlines : Prop :=
  (∀ (x1 y1 x2 y2 : Word) (c : Colour) (s : State),
    (∃ t, exec (.rect x1 y1 x2 y2 c) s = .next t ∧
      Drawn s t c (fun a b =>
        (min x1.toInt x2.toInt ≤ a ∧ a ≤ max x1.toInt x2.toInt) ∧
        (min y1.toInt y2.toInt ≤ b ∧ b ≤ max y1.toInt y2.toInt) ∧
        (s.pen = true ∨ a = x1.toInt ∨ a = x2.toInt ∨ b = y1.toInt ∨ b = y2.toInt))) ∧
    encode (.rect x1 y1 x2 y2 c) = [0x2400 ||| codeWord c, x1, y1, x2, y2]) ∧
  reservedFaults 0x24 legalColour

/-- R179: `DRECT` is the rectangle of R178 from its origin to `(x0 + dx - 1, y0 + dy - 1)`. -/
def Obligations.DrectFillsOrOutlines : Prop :=
  (∀ (x0 y0 dx dy : Word) (c : Colour) (s : State),
    (∃ t, exec (.drect x0 y0 dx dy c) s = .next t ∧
      Drawn s t c (fun a b =>
        (min x0.toInt (x0.toInt + dx.toInt - 1) ≤ a ∧ a ≤ max x0.toInt (x0.toInt + dx.toInt - 1)) ∧
        (min y0.toInt (y0.toInt + dy.toInt - 1) ≤ b ∧ b ≤ max y0.toInt (y0.toInt + dy.toInt - 1)) ∧
        (s.pen = true ∨ a = x0.toInt ∨ a = x0.toInt + dx.toInt - 1 ∨ b = y0.toInt ∨
          b = y0.toInt + dy.toInt - 1))) ∧
    encode (.drect x0 y0 dx dy c) = [0x2500 ||| codeWord c, x0, y0, dx, dy]) ∧
  reservedFaults 0x25 legalColour

/-- The facts and the table of R180: at most `r` pairs; `x` rises by 1 and `y` falls by 0 or 1 from pair to pair,
starting at `(0, r)`; the loop goes on exactly while `x < y`. -/
def Obligations.MidpointIteration : Prop :=
  (∀ r : Nat,
    (midpointPairs r).length ≤ r ∧
    (∀ (j : Nat) (p : Int × Int), (midpointPairs r)[j]? = some p → p.1 = j + 1) ∧
    (∀ p : Int × Int, (midpointPairs r)[0]? = some p → p.2 = r ∨ p.2 = r - 1) ∧
    (∀ (j : Nat) (p p' : Int × Int), (midpointPairs r)[j]? = some p → (midpointPairs r)[j + 1]? = some p' →
      p.1 < p.2 ∧ (p'.2 = p.2 ∨ p'.2 = p.2 - 1)) ∧
    (midpointEnd r).2 ≤ (midpointEnd r).1) ∧
  midpointPairs 0 = [] ∧ midpointPairs 1 = [(1, 0)] ∧ midpointPairs 2 = [(1, 2), (2, 1)] ∧
  midpointPairs 3 = [(1, 3), (2, 2)] ∧ midpointPairs 4 = [(1, 4), (2, 3), (3, 3)] ∧
  midpointPairs 5 = [(1, 5), (2, 5), (3, 4), (4, 3)] ∧ midpointPairs 6 = [(1, 6), (2, 6), (3, 5), (4, 4)] ∧
  midpointPairs 8 = [(1, 8), (2, 8), (3, 7), (4, 7), (5, 6), (6, 5)]

/-- R181, R185, outline pen: `CIRCLE` plots the four cardinal points and the eight symmetric points of every emitted
pair, a set symmetric under the eight reflections about the centre, which holds the centre for `r = 0` alone. -/
def Obligations.OutlineCirclePlotsItsPoints : Prop :=
  (∀ (x0 y0 r : Word) (c : Colour) (s : State), s.pen = false →
    ∃ t, exec (.circle x0 y0 r c) s = .next t ∧
      Drawn s t c (fun a b =>
        (a, b) = (x0.toInt, y0.toInt + r.toNat) ∨ (a, b) = (x0.toInt, y0.toInt - r.toNat) ∨
        (a, b) = (x0.toInt + r.toNat, y0.toInt) ∨ (a, b) = (x0.toInt - r.toNat, y0.toInt) ∨
        ∃ x y, (x, y) ∈ midpointPairs r.toNat ∧
          ((a = x0.toInt + x ∨ a = x0.toInt - x) ∧ (b = y0.toInt + y ∨ b = y0.toInt - y) ∨
           (a = x0.toInt + y ∨ a = x0.toInt - y) ∧ (b = y0.toInt + x ∨ b = y0.toInt - x)))) ∧
  (∀ (x0 y0 : Int) (r : Nat),
    (∀ a b : Int, (x0 + a, y0 + b) ∈ circleOutlinePoints x0 y0 r →
      (x0 - a, y0 + b) ∈ circleOutlinePoints x0 y0 r ∧ (x0 + a, y0 - b) ∈ circleOutlinePoints x0 y0 r ∧
      (x0 + b, y0 + a) ∈ circleOutlinePoints x0 y0 r) ∧
    ((x0, y0) ∈ circleOutlinePoints x0 y0 r ↔ r = 0))

/-- R184, R185, solid pen: with `CIRCLE_FILL = bounding` a solid `CIRCLE` plots exactly the square of side `2r + 1`; with
`terminal` it plots the spans of R182 and the square under the last pair. -/
def Obligations.SolidCircleFillsItsSquare : Prop :=
  (∀ (x0 y0 r : Word) (c : Colour) (s : State), s.pen = true → s.params.circleFill = .bounding →
    ∃ t, exec (.circle x0 y0 r c) s = .next t ∧
      Drawn s t c (fun a b =>
        (x0.toInt - r.toNat ≤ a ∧ a ≤ x0.toInt + r.toNat) ∧ (y0.toInt - r.toNat ≤ b ∧ b ≤ y0.toInt + r.toNat))) ∧
  (∀ (x0 y0 r : Word) (c : Colour) (s : State), s.pen = true → s.params.circleFill = .terminal →
    ∃ t, exec (.circle x0 y0 r c) s = .next t ∧
      Drawn s t c (fun a b =>
        (∃ x y, (x, y) ∈ midpointPairs r.toNat ∧
          (((b = y0.toInt + y ∨ b = y0.toInt - y) ∧ x0.toInt - x ≤ a ∧ a ≤ x0.toInt + x) ∨
           ((a = x0.toInt + y ∨ a = x0.toInt - y) ∧ y0.toInt - x ≤ b ∧ b ≤ y0.toInt + x))) ∨
        ((x0.toInt - (midpointEnd r.toNat).1 ≤ a ∧ a ≤ x0.toInt + (midpointEnd r.toNat).1) ∧
         (y0.toInt - (midpointEnd r.toNat).2 ≤ b ∧ b ≤ y0.toInt + (midpointEnd r.toNat).2)))) ∧
  (∀ (x0 y0 r : Word) (c : Colour), encode (.circle x0 y0 r c) = [0x2600 ||| codeWord c, x0, y0, r]) ∧
  reservedFaults 0x26 legalColour

/-! ## Text -/

/-- R207 with R204 to R206: `GTEXT` plots the glyph bits of the characters that have a glyph, in the text colour, and
the filled background bits in the background colour, and changes nothing else but the record of font-port requests
(log entry 11). -/
def Obligations.GtextDrawsItsGlyphs : Prop :=
  (∀ (x0 y0 : Word) (fg bg : Colour) (text : List Byte) (s : State),
    ∃ t, exec (.gtext x0 y0 fg bg text) s = .next t ∧
      t = { s with cur := t.cur, fontPort := t.fontPort } ∧
      (∀ x y c q, TextPixel s.params s.font.toNat s.fsolid x0.toInt y0.toInt fg bg text x y c →
        mapPixel s.params s.orient x y = some q → t.curPixel q = bitFor c q s.invert) ∧
      (∀ a : BitAddress,
        (∀ x y c q, TextPixel s.params s.font.toNat s.fsolid x0.toInt y0.toInt fg bg text x y c →
          mapPixel s.params s.orient x y = some q → a ≠ addr s.params q) → t.curBit a = s.curBit a)) ∧
  (∀ (x0 y0 : Word) (fg bg : Colour) (text : List Byte), text.length ≤ 255 →
    encode (.gtext x0 y0 fg bg text) =
      (0x2700 ||| (codeWord bg <<< 2) ||| codeWord fg) :: x0 :: y0 :: BitVec.ofNat 16 text.length ::
        text.map (BitVec.setWidth 16)) ∧
  reservedFaults 0x27 legalColours

/-- R208: the positions one `GTEXT` plots are all different, so the text and background colours never compete. -/
def Obligations.TextPositionsAreDistinct : Prop :=
  ∀ (p : Params) (font : Nat) (fsolid : Bool) (fg bg : Colour) (x0 y0 : Int) (text : List Byte),
    ((textDots p font fsolid fg bg x0 y0 0 text).map (fun d => (d.x, d.y))).Nodup

/-- R203, R210: one `GTEXT` asks the provider for the metrics of `CR.FONT` once and then, for each character with a
glyph, for its row bytes in ascending order; every request lies in the provider's domain; `CHARSZX` asks for the metrics
of `CR.FONT`, and no other command asks anything. The record of requests is the model's own field (log entry 11). -/
def Obligations.FontPortStaysInItsDomain : Prop :=
  (∀ (i : Instr) (s t : State), exec i s = .next t → (∀ x0 y0 fg bg text, i ≠ .gtext x0 y0 fg bg text) →
    t.fontPort = s.fontPort ++ if i = .charszx then [.metrics s.font.toNat] else []) ∧
  ∀ (x0 y0 : Word) (fg bg : Colour) (text : List Byte) (s t : State), s.Inv →
    exec (.gtext x0 y0 fg bg text) s = .next t →
    ∃ calls : List FontCall,
      t.fontPort = s.fontPort ++ .metrics s.font.toNat :: calls ∧ s.font.toNat < s.params.fontCount ∧
      calls = text.flatMap (fun ch =>
        if (s.params.metrics s.font.toNat).firstCode ≤ ch.toNat ∧
            ch.toNat < (s.params.metrics s.font.toNat).firstCode + (s.params.metrics s.font.toNat).glyphCount then
          (List.range (if (s.params.metrics s.font.toNat).height ≤ 8 then (s.params.metrics s.font.toNat).maxWidth
            else 2 * (s.params.metrics s.font.toNat).maxWidth)).map
            (fun k => .glyphRow s.font.toNat (ch.toNat - (s.params.metrics s.font.toNat).firstCode) k)
        else []) ∧
      ∀ f g k, FontCall.glyphRow f g k ∈ calls →
        f = s.font.toNat ∧ ∃ font row, s.params.fonts[f]? = some font ∧ font.glyphs[g]? = some row ∧ k < row.length

/-! ## Transfer -/

/-- R220, R221: `XFER` sends the bytes of `PREV` with `sel = 0`, then those of `CUR` with `sel = 1`, in ascending index, then
copies `CUR` into `PREV`; `CUR` and everything else stay; a second `XFER` sends the same bytes for both planes. -/
def Obligations.XferReadsOutThenCommits : Prop :=
  (∀ s : State, s.Inv →
    ∃ t, exec .xfer s = .next t ∧ t = { s with prev := t.prev, pix := t.pix } ∧
      t.pix = s.pix ++ (List.range s.params.planeBytes).map (fun i => ⟨0, s.readPrev i⟩)
        ++ (List.range s.params.planeBytes).map (fun i => ⟨1, s.readCur i⟩) ∧
      (∀ i, i < s.params.planeBytes → t.readPrev i = s.readCur i) ∧
      (∀ i, t.readCur i = s.readCur i) ∧
      (∀ i, s.params.planeBytes ≤ i → t.readPrev i = s.readPrev i) ∧
      ∃ u, exec .xfer t = .next u ∧
        u.pix = t.pix ++ (List.range s.params.planeBytes).map (fun i => ⟨0, s.readCur i⟩)
          ++ (List.range s.params.planeBytes).map (fun i => ⟨1, s.readCur i⟩)) ∧
  encode .xfer = [0x3000] ∧ reservedFaults 0x30 legalNone
end

