-- ==== Sys2Proof/Laws/Decode.lean ====
section
/-! SUPPORT. Fields of words, the readings of the short operands, and how decoding behaves when words are added. -/

namespace Sys2Proof

/-! ## Fields -/

@[simp] theorem high_headerWord (op a : Byte) : (headerWord op a).high = op := by
  exact BitVec.extractLsb'_append_eq_left

@[simp] theorem low_headerWord (op a : Byte) : (headerWord op a).low = a := by
  exact BitVec.extractLsb'_append_eq_right

/-- A word is its two halves. -/
theorem headerWord_high_low (w : Word) : headerWord w.high w.low = w := by
  simp only [headerWord, Word.high, Word.low]
  rw [BitVec.extractLsb'_append_extractLsb'_eq_extractLsb' (by rfl)]
  simp

@[simp] theorem high_byteWord (b : Byte) : (byteWord b).high = 0 := high_headerWord 0 b

@[simp] theorem low_byteWord (b : Byte) : (byteWord b).low = b := low_headerWord 0 b

/-- A word whose high half is zero is the word of its low half. -/
theorem byteWord_low {w : Word} (h : w.high = 0) : byteWord w.low = w := by
  conv => rhs; rw [← headerWord_high_low w, h]
  rfl

/-! ## Short operands -/

@[simp] theorem ofCode?_code (c : Colour) : Colour.ofCode? c.code = some c := by cases c <;> decide

theorem code_of_ofCode? : ∀ {k : BitVec 2} {c : Colour}, Colour.ofCode? k = some c → k = c.code := by
  intro k c
  revert k
  cases c <;> decide

@[simp] theorem flagOf?_flagField (f : Bool) : flagOf? (flagField f) = some f := by cases f <;> decide

@[simp] theorem colourOf?_colourField (c : Colour) : colourOf? (colourField c) = some c := by cases c <;> decide

@[simp] theorem coloursOf?_coloursField (fg bg : Colour) : coloursOf? (coloursField fg bg) = some (fg, bg) := by
  cases fg <;> cases bg <;> decide

theorem flagField_of_flagOf? : ∀ {a : Byte} {f : Bool}, flagOf? a = some f → a = flagField f := by
  intro a f
  revert a
  cases f <;> decide

theorem colourField_of_colourOf? : ∀ {a : Byte} {c : Colour}, colourOf? a = some c → a = colourField c := by
  intro a c
  revert a
  cases c <;> decide

theorem coloursField_of_coloursOf? : ∀ {a : Byte} {fg bg : Colour}, coloursOf? a = some (fg, bg) → a = coloursField fg bg := by
  intro a fg bg
  revert a
  cases fg <;> cases bg <;> decide

/-! ## Headers that pass their checks -/

theorem checked_ok {α : Type} {operand : Option α} {sel : α → Header} {hd : Header} (h : checked operand sel = .ok hd) :
    ∃ x, operand = some x ∧ hd = sel x := by
  cases operand with
  | none => cases h
  | some x => exact ⟨x, rfl, by injection h with h; exact h.symm⟩

theorem noOperand_ok {a : Byte} {hd' hd : Header} (h : noOperand a hd' = .ok hd) : a = 0 ∧ hd = hd' := by
  unfold noOperand at h
  split at h
  · rename_i ha
    exact ⟨ha, by injection h with h; exact h.symm⟩
  · cases h

/-- A header that passes its checks is the header word of one of the 23 commands, with its short operand legal. -/
theorem decodeHeader_cases {w : Word} {hd : Header} (h : decodeHeader w = .ok hd) :
    (∃ a i, (w.high, i) ∈ [(0x01, Instr.setorient a), (0x04, .selfont a), (0x06, .setfspx a), (0x07, .setfspy a)] ∧
      w.low = a ∧ hd = .whole i) ∨
    (∃ f i, (w.high, i) ∈ [(0x02, Instr.setpen f), (0x03, .setinv f), (0x05, .setfsolid f)] ∧
      w.low = flagField f ∧ hd = .whole i) ∨
    (∃ hd', (w.high, hd') ∈ [(0x10, Header.whole .getorient), (0x11, .whole .sizex), (0x12, .whole .sizey),
        (0x13, .whole .getfont), (0x14, .whole .fontmax), (0x15, .whole .charszx), (0x16, .rdpix), (0x30, .whole .xfer)] ∧
      w.low = 0 ∧ hd = hd') ∨
    (∃ c hd', (w.high, hd') ∈ [(0x20, Header.whole (.clear c)), (0x21, .point c), (0x22, .line c), (0x23, .dline c),
        (0x24, .rect c), (0x25, .drect c), (0x26, .circle c)] ∧
      w.low = colourField c ∧ hd = hd') ∨
    (∃ fg bg, w.high = 0x27 ∧ w.low = coloursField fg bg ∧ hd = .gtext fg bg) := by
  have hop : ∀ {n : Nat}, n < 256 → w.high.toNat = n → w.high = BitVec.ofNat 8 n := by
    intro n hn he
    apply BitVec.eq_of_toNat_eq
    rw [he, BitVec.toNat_ofNat, Nat.mod_eq_of_lt hn]
  unfold decodeHeader at h
  simp only at h
  split at h
  all_goals first | (cases h; done) | (rename_i hval; replace hval := hop (by norm_num) hval)
  all_goals first
    | (injection h with h; exact .inl ⟨w.low, _, by rw [hval]; simp, rfl, h.symm⟩)
    | (obtain ⟨f, hf, rfl⟩ := checked_ok h
       first
        | exact .inr (.inl ⟨f, _, by rw [hval]; simp, flagField_of_flagOf? hf, rfl⟩)
        | exact .inr (.inr (.inr (.inl ⟨f, _, by rw [hval]; simp, colourField_of_colourOf? hf, rfl⟩)))
        | exact .inr (.inr (.inr (.inr ⟨f.1, f.2, hval, coloursField_of_coloursOf? hf, rfl⟩))))
    | (obtain ⟨ha, rfl⟩ := noOperand_ok h
       exact .inr (.inr (.inl ⟨_, by rw [hval]; simp, ha, rfl⟩)))

/-! ## Character words -/

theorem takeChars_map_byteWord (text : List Byte) (rest : List Word) :
    takeChars text.length (text.map byteWord ++ rest) = .got text rest := by
  induction text with
  | nil => rfl
  | cons b text ih => simp [takeChars, ih]

theorem takeChars_got {n : Nat} {ws rest : List Word} {text : List Byte} (h : takeChars n ws = .got text rest) :
    text.length = n ∧ ws = text.map byteWord ++ rest := by
  induction n generalizing ws text with
  | zero =>
    simp only [takeChars, Chars.got.injEq] at h
    obtain ⟨rfl, rfl⟩ := h
    exact ⟨rfl, rfl⟩
  | succ n ih =>
    cases ws with
    | nil => simp [takeChars] at h
    | cons w ws =>
      simp only [takeChars] at h
      split at h
      · rename_i hw
        split at h
        · rename_i text' rest' heq
          simp only [Chars.got.injEq] at h
          obtain ⟨rfl, rfl⟩ := h
          obtain ⟨hl, hws⟩ := ih heq
          exact ⟨by simp [hl], by simp [hws, byteWord_low hw]⟩
        · simp at h
        · simp at h
      · simp at h

theorem takeChars_append {n : Nat} {ws : List Word} (more : List Word) (h : takeChars n ws ≠ .short) :
    takeChars n (ws ++ more) =
      match takeChars n ws with
      | .got text rest => .got text (rest ++ more)
      | r => r := by
  induction n generalizing ws with
  | zero => rfl
  | succ n ih =>
    cases ws with
    | nil => simp [takeChars] at h
    | cons w ws =>
      simp only [takeChars, List.cons_append] at h ⊢
      split
      · rename_i hw
        rw [if_pos hw] at h
        have h' : takeChars n ws ≠ .short := by intro hc; simp [hc] at h
        rw [ih h']
        cases takeChars n ws <;> simp_all
      · rfl

/-- Character words that all pass their check and are too few leave the command incomplete. -/
theorem takeChars_short {n : Nat} {ws : List Word} (hw : ∀ w ∈ ws, w.high = 0) (hl : ws.length < n) :
    takeChars n ws = .short := by
  induction n generalizing ws with
  | zero => omega
  | succ n ih =>
    cases ws with
    | nil => rfl
    | cons w ws =>
      simp only [takeChars, hw w (by simp), if_true]
      rw [ih (fun v hv => hw v (by simp [hv])) (by simpa using hl)]

/-- A character word that fails its check, after words that pass, makes the command malformed. -/
theorem takeChars_bad {n : Nat} {ws : List Word} {w : Word} (hw : ∀ v ∈ ws, v.high = 0) (hl : ws.length < n)
    (hb : w.high ≠ 0) (more : List Word) : takeChars n (ws ++ w :: more) = .bad := by
  induction n generalizing ws with
  | zero => omega
  | succ n ih =>
    cases ws with
    | nil => simp only [List.nil_append, takeChars, if_neg hb]
    | cons v ws =>
      simp only [List.cons_append, takeChars, hw v (by simp), if_true]
      rw [ih (fun u hu => hw u (by simp [hu])) (by simpa using hl)]

/-! ## Words added at the end -/

theorem decodeGtext_append {fg bg : Colour} {ws : List Word} (more : List Word) (h : decodeGtext fg bg ws ≠ .incomplete) :
    decodeGtext fg bg (ws ++ more) =
      match decodeGtext fg bg ws with
      | .done i rest => .done i (rest ++ more)
      | r => r := by
  match ws with
  | [] | [_] | [_, _] => simp [decodeGtext] at h
  | x0 :: y0 :: n :: ws =>
    simp only [decodeGtext, List.cons_append] at h ⊢
    split
    · rename_i hn
      rw [if_pos hn] at h
      have h' : takeChars n.low.toNat ws ≠ .short := by intro hc; simp [hc] at h
      rw [takeChars_append more h']
      cases takeChars n.low.toNat ws <;> simp_all
    · rfl

theorem decodeOperands_append {hd : Header} {ws : List Word} (more : List Word)
    (h : decodeOperands hd ws ≠ .incomplete) :
    decodeOperands hd (ws ++ more) =
      match decodeOperands hd ws with
      | .done i rest => .done i (rest ++ more)
      | r => r := by
  cases hd with
  | whole i => rfl
  | gtext fg bg => exact decodeGtext_append more h
  | rdpix | point c =>
    match ws with
    | [] | [_] => exact absurd rfl h
    | _ :: _ :: _ => rfl
  | circle c =>
    match ws with
    | [] | [_] | [_, _] => exact absurd rfl h
    | _ :: _ :: _ :: _ => rfl
  | line c | dline c | rect c | drect c =>
    match ws with
    | [] | [_] | [_, _] | [_, _, _] => exact absurd rfl h
    | _ :: _ :: _ :: _ :: _ => rfl

/-- Words after a complete command, or after a word that failed its check, do not change its reading (R93). -/
theorem decode_append {ws : List Word} (more : List Word) (h : decode ws ≠ .incomplete) :
    decode (ws ++ more) =
      match decode ws with
      | .done i rest => .done i (rest ++ more)
      | r => r := by
  match ws with
  | [] => simp [decode] at h
  | w :: ws =>
    simp only [decode, List.cons_append] at h ⊢
    cases hd : decodeHeader w with
    | error c => rfl
    | ok hdr =>
      rw [hd] at h
      exact decodeOperands_append more h

theorem decode_append_of_done {ws rest : List Word} {i : Instr} (h : decode ws = .done i rest) (more : List Word) :
    decode (ws ++ more) = .done i (rest ++ more) := by rw [decode_append more (by simp [h]), h]

theorem decode_append_of_malformed {ws : List Word} {c : FaultCause} (h : decode ws = .malformed c) (more : List Word) :
    decode (ws ++ more) = .malformed c := by rw [decode_append more (by simp [h]), h]

/-- What is before an incomplete reading is incomplete too. -/
theorem decode_prefix_incomplete {ws more : List Word} (h : decode (ws ++ more) = .incomplete) :
    decode ws = .incomplete := by
  by_contra hc
  rw [decode_append more hc] at h
  cases hd : decode ws <;> simp_all

end Sys2Proof
end

