-- ==== Sys2Proof/Laws/State.lean ====
section
/-! SUPPORT. For each update of the state, one lemma per field: the field it writes, and every field it leaves. -/

namespace Sys2Proof.Machine

/-! ## `setCur` -/

@[simp] theorem State.setCur_params (s : State) (m : Memory) : (s.setCur m).params = s.params := rfl
@[simp] theorem State.setCur_epoch (s : State) (m : Memory) : (s.setCur m).epoch = s.epoch := rfl
@[simp] theorem State.setCur_cur (s : State) (m : Memory) : (s.setCur m).cur = m := rfl
@[simp] theorem State.setCur_prev (s : State) (m : Memory) : (s.setCur m).prev = s.prev := rfl
@[simp] theorem State.setCur_orient (s : State) (m : Memory) : (s.setCur m).orient = s.orient := rfl
@[simp] theorem State.setCur_pen (s : State) (m : Memory) : (s.setCur m).pen = s.pen := rfl
@[simp] theorem State.setCur_invert (s : State) (m : Memory) : (s.setCur m).invert = s.invert := rfl
@[simp] theorem State.setCur_font (s : State) (m : Memory) : (s.setCur m).font = s.font := rfl
@[simp] theorem State.setCur_fsolid (s : State) (m : Memory) : (s.setCur m).fsolid = s.fsolid := rfl
@[simp] theorem State.setCur_fspx (s : State) (m : Memory) : (s.setCur m).fspx = s.fspx := rfl
@[simp] theorem State.setCur_fspy (s : State) (m : Memory) : (s.setCur m).fspy = s.fspy := rfl
@[simp] theorem State.setCur_status (s : State) (m : Memory) : (s.setCur m).status = s.status := rfl
@[simp] theorem State.setCur_asm (s : State) (m : Memory) : (s.setCur m).asm = s.asm := rfl
@[simp] theorem State.setCur_input (s : State) (m : Memory) : (s.setCur m).input = s.input := rfl
@[simp] theorem State.setCur_rsp (s : State) (m : Memory) : (s.setCur m).rsp = s.rsp := rfl
@[simp] theorem State.setCur_pix (s : State) (m : Memory) : (s.setCur m).pix = s.pix := rfl
@[simp] theorem State.setCur_fontPort (s : State) (m : Memory) : (s.setCur m).fontPort = s.fontPort := rfl

/-! ## `setPrev` -/

@[simp] theorem State.setPrev_params (s : State) (m : Memory) : (s.setPrev m).params = s.params := rfl
@[simp] theorem State.setPrev_epoch (s : State) (m : Memory) : (s.setPrev m).epoch = s.epoch := rfl
@[simp] theorem State.setPrev_cur (s : State) (m : Memory) : (s.setPrev m).cur = s.cur := rfl
@[simp] theorem State.setPrev_prev (s : State) (m : Memory) : (s.setPrev m).prev = m := rfl
@[simp] theorem State.setPrev_orient (s : State) (m : Memory) : (s.setPrev m).orient = s.orient := rfl
@[simp] theorem State.setPrev_pen (s : State) (m : Memory) : (s.setPrev m).pen = s.pen := rfl
@[simp] theorem State.setPrev_invert (s : State) (m : Memory) : (s.setPrev m).invert = s.invert := rfl
@[simp] theorem State.setPrev_font (s : State) (m : Memory) : (s.setPrev m).font = s.font := rfl
@[simp] theorem State.setPrev_fsolid (s : State) (m : Memory) : (s.setPrev m).fsolid = s.fsolid := rfl
@[simp] theorem State.setPrev_fspx (s : State) (m : Memory) : (s.setPrev m).fspx = s.fspx := rfl
@[simp] theorem State.setPrev_fspy (s : State) (m : Memory) : (s.setPrev m).fspy = s.fspy := rfl
@[simp] theorem State.setPrev_status (s : State) (m : Memory) : (s.setPrev m).status = s.status := rfl
@[simp] theorem State.setPrev_asm (s : State) (m : Memory) : (s.setPrev m).asm = s.asm := rfl
@[simp] theorem State.setPrev_input (s : State) (m : Memory) : (s.setPrev m).input = s.input := rfl
@[simp] theorem State.setPrev_rsp (s : State) (m : Memory) : (s.setPrev m).rsp = s.rsp := rfl
@[simp] theorem State.setPrev_pix (s : State) (m : Memory) : (s.setPrev m).pix = s.pix := rfl
@[simp] theorem State.setPrev_fontPort (s : State) (m : Memory) : (s.setPrev m).fontPort = s.fontPort := rfl

/-! ## `setOrient` -/

@[simp] theorem State.setOrient_params (s : State) (v : BitVec 2) : (s.setOrient v).params = s.params := rfl
@[simp] theorem State.setOrient_epoch (s : State) (v : BitVec 2) : (s.setOrient v).epoch = s.epoch := rfl
@[simp] theorem State.setOrient_cur (s : State) (v : BitVec 2) : (s.setOrient v).cur = s.cur := rfl
@[simp] theorem State.setOrient_prev (s : State) (v : BitVec 2) : (s.setOrient v).prev = s.prev := rfl
@[simp] theorem State.setOrient_orient (s : State) (v : BitVec 2) : (s.setOrient v).orient = v := rfl
@[simp] theorem State.setOrient_pen (s : State) (v : BitVec 2) : (s.setOrient v).pen = s.pen := rfl
@[simp] theorem State.setOrient_invert (s : State) (v : BitVec 2) : (s.setOrient v).invert = s.invert := rfl
@[simp] theorem State.setOrient_font (s : State) (v : BitVec 2) : (s.setOrient v).font = s.font := rfl
@[simp] theorem State.setOrient_fsolid (s : State) (v : BitVec 2) : (s.setOrient v).fsolid = s.fsolid := rfl
@[simp] theorem State.setOrient_fspx (s : State) (v : BitVec 2) : (s.setOrient v).fspx = s.fspx := rfl
@[simp] theorem State.setOrient_fspy (s : State) (v : BitVec 2) : (s.setOrient v).fspy = s.fspy := rfl
@[simp] theorem State.setOrient_status (s : State) (v : BitVec 2) : (s.setOrient v).status = s.status := rfl
@[simp] theorem State.setOrient_asm (s : State) (v : BitVec 2) : (s.setOrient v).asm = s.asm := rfl
@[simp] theorem State.setOrient_input (s : State) (v : BitVec 2) : (s.setOrient v).input = s.input := rfl
@[simp] theorem State.setOrient_rsp (s : State) (v : BitVec 2) : (s.setOrient v).rsp = s.rsp := rfl
@[simp] theorem State.setOrient_pix (s : State) (v : BitVec 2) : (s.setOrient v).pix = s.pix := rfl
@[simp] theorem State.setOrient_fontPort (s : State) (v : BitVec 2) : (s.setOrient v).fontPort = s.fontPort := rfl

/-! ## `setPen` -/

@[simp] theorem State.setPen_params (s : State) (v : Bool) : (s.setPen v).params = s.params := rfl
@[simp] theorem State.setPen_epoch (s : State) (v : Bool) : (s.setPen v).epoch = s.epoch := rfl
@[simp] theorem State.setPen_cur (s : State) (v : Bool) : (s.setPen v).cur = s.cur := rfl
@[simp] theorem State.setPen_prev (s : State) (v : Bool) : (s.setPen v).prev = s.prev := rfl
@[simp] theorem State.setPen_orient (s : State) (v : Bool) : (s.setPen v).orient = s.orient := rfl
@[simp] theorem State.setPen_pen (s : State) (v : Bool) : (s.setPen v).pen = v := rfl
@[simp] theorem State.setPen_invert (s : State) (v : Bool) : (s.setPen v).invert = s.invert := rfl
@[simp] theorem State.setPen_font (s : State) (v : Bool) : (s.setPen v).font = s.font := rfl
@[simp] theorem State.setPen_fsolid (s : State) (v : Bool) : (s.setPen v).fsolid = s.fsolid := rfl
@[simp] theorem State.setPen_fspx (s : State) (v : Bool) : (s.setPen v).fspx = s.fspx := rfl
@[simp] theorem State.setPen_fspy (s : State) (v : Bool) : (s.setPen v).fspy = s.fspy := rfl
@[simp] theorem State.setPen_status (s : State) (v : Bool) : (s.setPen v).status = s.status := rfl
@[simp] theorem State.setPen_asm (s : State) (v : Bool) : (s.setPen v).asm = s.asm := rfl
@[simp] theorem State.setPen_input (s : State) (v : Bool) : (s.setPen v).input = s.input := rfl
@[simp] theorem State.setPen_rsp (s : State) (v : Bool) : (s.setPen v).rsp = s.rsp := rfl
@[simp] theorem State.setPen_pix (s : State) (v : Bool) : (s.setPen v).pix = s.pix := rfl
@[simp] theorem State.setPen_fontPort (s : State) (v : Bool) : (s.setPen v).fontPort = s.fontPort := rfl

/-! ## `setInvert` -/

@[simp] theorem State.setInvert_params (s : State) (v : Bool) : (s.setInvert v).params = s.params := rfl
@[simp] theorem State.setInvert_epoch (s : State) (v : Bool) : (s.setInvert v).epoch = s.epoch := rfl
@[simp] theorem State.setInvert_cur (s : State) (v : Bool) : (s.setInvert v).cur = s.cur := rfl
@[simp] theorem State.setInvert_prev (s : State) (v : Bool) : (s.setInvert v).prev = s.prev := rfl
@[simp] theorem State.setInvert_orient (s : State) (v : Bool) : (s.setInvert v).orient = s.orient := rfl
@[simp] theorem State.setInvert_pen (s : State) (v : Bool) : (s.setInvert v).pen = s.pen := rfl
@[simp] theorem State.setInvert_invert (s : State) (v : Bool) : (s.setInvert v).invert = v := rfl
@[simp] theorem State.setInvert_font (s : State) (v : Bool) : (s.setInvert v).font = s.font := rfl
@[simp] theorem State.setInvert_fsolid (s : State) (v : Bool) : (s.setInvert v).fsolid = s.fsolid := rfl
@[simp] theorem State.setInvert_fspx (s : State) (v : Bool) : (s.setInvert v).fspx = s.fspx := rfl
@[simp] theorem State.setInvert_fspy (s : State) (v : Bool) : (s.setInvert v).fspy = s.fspy := rfl
@[simp] theorem State.setInvert_status (s : State) (v : Bool) : (s.setInvert v).status = s.status := rfl
@[simp] theorem State.setInvert_asm (s : State) (v : Bool) : (s.setInvert v).asm = s.asm := rfl
@[simp] theorem State.setInvert_input (s : State) (v : Bool) : (s.setInvert v).input = s.input := rfl
@[simp] theorem State.setInvert_rsp (s : State) (v : Bool) : (s.setInvert v).rsp = s.rsp := rfl
@[simp] theorem State.setInvert_pix (s : State) (v : Bool) : (s.setInvert v).pix = s.pix := rfl
@[simp] theorem State.setInvert_fontPort (s : State) (v : Bool) : (s.setInvert v).fontPort = s.fontPort := rfl

/-! ## `setFont` -/

@[simp] theorem State.setFont_params (s : State) (v : Byte) : (s.setFont v).params = s.params := rfl
@[simp] theorem State.setFont_epoch (s : State) (v : Byte) : (s.setFont v).epoch = s.epoch := rfl
@[simp] theorem State.setFont_cur (s : State) (v : Byte) : (s.setFont v).cur = s.cur := rfl
@[simp] theorem State.setFont_prev (s : State) (v : Byte) : (s.setFont v).prev = s.prev := rfl
@[simp] theorem State.setFont_orient (s : State) (v : Byte) : (s.setFont v).orient = s.orient := rfl
@[simp] theorem State.setFont_pen (s : State) (v : Byte) : (s.setFont v).pen = s.pen := rfl
@[simp] theorem State.setFont_invert (s : State) (v : Byte) : (s.setFont v).invert = s.invert := rfl
@[simp] theorem State.setFont_font (s : State) (v : Byte) : (s.setFont v).font = v := rfl
@[simp] theorem State.setFont_fsolid (s : State) (v : Byte) : (s.setFont v).fsolid = s.fsolid := rfl
@[simp] theorem State.setFont_fspx (s : State) (v : Byte) : (s.setFont v).fspx = s.fspx := rfl
@[simp] theorem State.setFont_fspy (s : State) (v : Byte) : (s.setFont v).fspy = s.fspy := rfl
@[simp] theorem State.setFont_status (s : State) (v : Byte) : (s.setFont v).status = s.status := rfl
@[simp] theorem State.setFont_asm (s : State) (v : Byte) : (s.setFont v).asm = s.asm := rfl
@[simp] theorem State.setFont_input (s : State) (v : Byte) : (s.setFont v).input = s.input := rfl
@[simp] theorem State.setFont_rsp (s : State) (v : Byte) : (s.setFont v).rsp = s.rsp := rfl
@[simp] theorem State.setFont_pix (s : State) (v : Byte) : (s.setFont v).pix = s.pix := rfl
@[simp] theorem State.setFont_fontPort (s : State) (v : Byte) : (s.setFont v).fontPort = s.fontPort := rfl

/-! ## `setFsolid` -/

@[simp] theorem State.setFsolid_params (s : State) (v : Bool) : (s.setFsolid v).params = s.params := rfl
@[simp] theorem State.setFsolid_epoch (s : State) (v : Bool) : (s.setFsolid v).epoch = s.epoch := rfl
@[simp] theorem State.setFsolid_cur (s : State) (v : Bool) : (s.setFsolid v).cur = s.cur := rfl
@[simp] theorem State.setFsolid_prev (s : State) (v : Bool) : (s.setFsolid v).prev = s.prev := rfl
@[simp] theorem State.setFsolid_orient (s : State) (v : Bool) : (s.setFsolid v).orient = s.orient := rfl
@[simp] theorem State.setFsolid_pen (s : State) (v : Bool) : (s.setFsolid v).pen = s.pen := rfl
@[simp] theorem State.setFsolid_invert (s : State) (v : Bool) : (s.setFsolid v).invert = s.invert := rfl
@[simp] theorem State.setFsolid_font (s : State) (v : Bool) : (s.setFsolid v).font = s.font := rfl
@[simp] theorem State.setFsolid_fsolid (s : State) (v : Bool) : (s.setFsolid v).fsolid = v := rfl
@[simp] theorem State.setFsolid_fspx (s : State) (v : Bool) : (s.setFsolid v).fspx = s.fspx := rfl
@[simp] theorem State.setFsolid_fspy (s : State) (v : Bool) : (s.setFsolid v).fspy = s.fspy := rfl
@[simp] theorem State.setFsolid_status (s : State) (v : Bool) : (s.setFsolid v).status = s.status := rfl
@[simp] theorem State.setFsolid_asm (s : State) (v : Bool) : (s.setFsolid v).asm = s.asm := rfl
@[simp] theorem State.setFsolid_input (s : State) (v : Bool) : (s.setFsolid v).input = s.input := rfl
@[simp] theorem State.setFsolid_rsp (s : State) (v : Bool) : (s.setFsolid v).rsp = s.rsp := rfl
@[simp] theorem State.setFsolid_pix (s : State) (v : Bool) : (s.setFsolid v).pix = s.pix := rfl
@[simp] theorem State.setFsolid_fontPort (s : State) (v : Bool) : (s.setFsolid v).fontPort = s.fontPort := rfl

/-! ## `setFspx` -/

@[simp] theorem State.setFspx_params (s : State) (v : Byte) : (s.setFspx v).params = s.params := rfl
@[simp] theorem State.setFspx_epoch (s : State) (v : Byte) : (s.setFspx v).epoch = s.epoch := rfl
@[simp] theorem State.setFspx_cur (s : State) (v : Byte) : (s.setFspx v).cur = s.cur := rfl
@[simp] theorem State.setFspx_prev (s : State) (v : Byte) : (s.setFspx v).prev = s.prev := rfl
@[simp] theorem State.setFspx_orient (s : State) (v : Byte) : (s.setFspx v).orient = s.orient := rfl
@[simp] theorem State.setFspx_pen (s : State) (v : Byte) : (s.setFspx v).pen = s.pen := rfl
@[simp] theorem State.setFspx_invert (s : State) (v : Byte) : (s.setFspx v).invert = s.invert := rfl
@[simp] theorem State.setFspx_font (s : State) (v : Byte) : (s.setFspx v).font = s.font := rfl
@[simp] theorem State.setFspx_fsolid (s : State) (v : Byte) : (s.setFspx v).fsolid = s.fsolid := rfl
@[simp] theorem State.setFspx_fspx (s : State) (v : Byte) : (s.setFspx v).fspx = v := rfl
@[simp] theorem State.setFspx_fspy (s : State) (v : Byte) : (s.setFspx v).fspy = s.fspy := rfl
@[simp] theorem State.setFspx_status (s : State) (v : Byte) : (s.setFspx v).status = s.status := rfl
@[simp] theorem State.setFspx_asm (s : State) (v : Byte) : (s.setFspx v).asm = s.asm := rfl
@[simp] theorem State.setFspx_input (s : State) (v : Byte) : (s.setFspx v).input = s.input := rfl
@[simp] theorem State.setFspx_rsp (s : State) (v : Byte) : (s.setFspx v).rsp = s.rsp := rfl
@[simp] theorem State.setFspx_pix (s : State) (v : Byte) : (s.setFspx v).pix = s.pix := rfl
@[simp] theorem State.setFspx_fontPort (s : State) (v : Byte) : (s.setFspx v).fontPort = s.fontPort := rfl

/-! ## `setFspy` -/

@[simp] theorem State.setFspy_params (s : State) (v : Byte) : (s.setFspy v).params = s.params := rfl
@[simp] theorem State.setFspy_epoch (s : State) (v : Byte) : (s.setFspy v).epoch = s.epoch := rfl
@[simp] theorem State.setFspy_cur (s : State) (v : Byte) : (s.setFspy v).cur = s.cur := rfl
@[simp] theorem State.setFspy_prev (s : State) (v : Byte) : (s.setFspy v).prev = s.prev := rfl
@[simp] theorem State.setFspy_orient (s : State) (v : Byte) : (s.setFspy v).orient = s.orient := rfl
@[simp] theorem State.setFspy_pen (s : State) (v : Byte) : (s.setFspy v).pen = s.pen := rfl
@[simp] theorem State.setFspy_invert (s : State) (v : Byte) : (s.setFspy v).invert = s.invert := rfl
@[simp] theorem State.setFspy_font (s : State) (v : Byte) : (s.setFspy v).font = s.font := rfl
@[simp] theorem State.setFspy_fsolid (s : State) (v : Byte) : (s.setFspy v).fsolid = s.fsolid := rfl
@[simp] theorem State.setFspy_fspx (s : State) (v : Byte) : (s.setFspy v).fspx = s.fspx := rfl
@[simp] theorem State.setFspy_fspy (s : State) (v : Byte) : (s.setFspy v).fspy = v := rfl
@[simp] theorem State.setFspy_status (s : State) (v : Byte) : (s.setFspy v).status = s.status := rfl
@[simp] theorem State.setFspy_asm (s : State) (v : Byte) : (s.setFspy v).asm = s.asm := rfl
@[simp] theorem State.setFspy_input (s : State) (v : Byte) : (s.setFspy v).input = s.input := rfl
@[simp] theorem State.setFspy_rsp (s : State) (v : Byte) : (s.setFspy v).rsp = s.rsp := rfl
@[simp] theorem State.setFspy_pix (s : State) (v : Byte) : (s.setFspy v).pix = s.pix := rfl
@[simp] theorem State.setFspy_fontPort (s : State) (v : Byte) : (s.setFspy v).fontPort = s.fontPort := rfl

/-! ## `setStatus` -/

@[simp] theorem State.setStatus_params (s : State) (v : BitVec 3) : (s.setStatus v).params = s.params := rfl
@[simp] theorem State.setStatus_epoch (s : State) (v : BitVec 3) : (s.setStatus v).epoch = s.epoch := rfl
@[simp] theorem State.setStatus_cur (s : State) (v : BitVec 3) : (s.setStatus v).cur = s.cur := rfl
@[simp] theorem State.setStatus_prev (s : State) (v : BitVec 3) : (s.setStatus v).prev = s.prev := rfl
@[simp] theorem State.setStatus_orient (s : State) (v : BitVec 3) : (s.setStatus v).orient = s.orient := rfl
@[simp] theorem State.setStatus_pen (s : State) (v : BitVec 3) : (s.setStatus v).pen = s.pen := rfl
@[simp] theorem State.setStatus_invert (s : State) (v : BitVec 3) : (s.setStatus v).invert = s.invert := rfl
@[simp] theorem State.setStatus_font (s : State) (v : BitVec 3) : (s.setStatus v).font = s.font := rfl
@[simp] theorem State.setStatus_fsolid (s : State) (v : BitVec 3) : (s.setStatus v).fsolid = s.fsolid := rfl
@[simp] theorem State.setStatus_fspx (s : State) (v : BitVec 3) : (s.setStatus v).fspx = s.fspx := rfl
@[simp] theorem State.setStatus_fspy (s : State) (v : BitVec 3) : (s.setStatus v).fspy = s.fspy := rfl
@[simp] theorem State.setStatus_status (s : State) (v : BitVec 3) : (s.setStatus v).status = v := rfl
@[simp] theorem State.setStatus_asm (s : State) (v : BitVec 3) : (s.setStatus v).asm = s.asm := rfl
@[simp] theorem State.setStatus_input (s : State) (v : BitVec 3) : (s.setStatus v).input = s.input := rfl
@[simp] theorem State.setStatus_rsp (s : State) (v : BitVec 3) : (s.setStatus v).rsp = s.rsp := rfl
@[simp] theorem State.setStatus_pix (s : State) (v : BitVec 3) : (s.setStatus v).pix = s.pix := rfl
@[simp] theorem State.setStatus_fontPort (s : State) (v : BitVec 3) : (s.setStatus v).fontPort = s.fontPort := rfl

/-! ## `setAsm` -/

@[simp] theorem State.setAsm_params (s : State) (ws : List Word) : (s.setAsm ws).params = s.params := rfl
@[simp] theorem State.setAsm_epoch (s : State) (ws : List Word) : (s.setAsm ws).epoch = s.epoch := rfl
@[simp] theorem State.setAsm_cur (s : State) (ws : List Word) : (s.setAsm ws).cur = s.cur := rfl
@[simp] theorem State.setAsm_prev (s : State) (ws : List Word) : (s.setAsm ws).prev = s.prev := rfl
@[simp] theorem State.setAsm_orient (s : State) (ws : List Word) : (s.setAsm ws).orient = s.orient := rfl
@[simp] theorem State.setAsm_pen (s : State) (ws : List Word) : (s.setAsm ws).pen = s.pen := rfl
@[simp] theorem State.setAsm_invert (s : State) (ws : List Word) : (s.setAsm ws).invert = s.invert := rfl
@[simp] theorem State.setAsm_font (s : State) (ws : List Word) : (s.setAsm ws).font = s.font := rfl
@[simp] theorem State.setAsm_fsolid (s : State) (ws : List Word) : (s.setAsm ws).fsolid = s.fsolid := rfl
@[simp] theorem State.setAsm_fspx (s : State) (ws : List Word) : (s.setAsm ws).fspx = s.fspx := rfl
@[simp] theorem State.setAsm_fspy (s : State) (ws : List Word) : (s.setAsm ws).fspy = s.fspy := rfl
@[simp] theorem State.setAsm_status (s : State) (ws : List Word) : (s.setAsm ws).status = s.status := rfl
@[simp] theorem State.setAsm_asm (s : State) (ws : List Word) : (s.setAsm ws).asm = ws := rfl
@[simp] theorem State.setAsm_input (s : State) (ws : List Word) : (s.setAsm ws).input = s.input := rfl
@[simp] theorem State.setAsm_rsp (s : State) (ws : List Word) : (s.setAsm ws).rsp = s.rsp := rfl
@[simp] theorem State.setAsm_pix (s : State) (ws : List Word) : (s.setAsm ws).pix = s.pix := rfl
@[simp] theorem State.setAsm_fontPort (s : State) (ws : List Word) : (s.setAsm ws).fontPort = s.fontPort := rfl

/-! ## `setInput` -/

@[simp] theorem State.setInput_params (s : State) (es : List PortEvent) : (s.setInput es).params = s.params := rfl
@[simp] theorem State.setInput_epoch (s : State) (es : List PortEvent) : (s.setInput es).epoch = s.epoch := rfl
@[simp] theorem State.setInput_cur (s : State) (es : List PortEvent) : (s.setInput es).cur = s.cur := rfl
@[simp] theorem State.setInput_prev (s : State) (es : List PortEvent) : (s.setInput es).prev = s.prev := rfl
@[simp] theorem State.setInput_orient (s : State) (es : List PortEvent) : (s.setInput es).orient = s.orient := rfl
@[simp] theorem State.setInput_pen (s : State) (es : List PortEvent) : (s.setInput es).pen = s.pen := rfl
@[simp] theorem State.setInput_invert (s : State) (es : List PortEvent) : (s.setInput es).invert = s.invert := rfl
@[simp] theorem State.setInput_font (s : State) (es : List PortEvent) : (s.setInput es).font = s.font := rfl
@[simp] theorem State.setInput_fsolid (s : State) (es : List PortEvent) : (s.setInput es).fsolid = s.fsolid := rfl
@[simp] theorem State.setInput_fspx (s : State) (es : List PortEvent) : (s.setInput es).fspx = s.fspx := rfl
@[simp] theorem State.setInput_fspy (s : State) (es : List PortEvent) : (s.setInput es).fspy = s.fspy := rfl
@[simp] theorem State.setInput_status (s : State) (es : List PortEvent) : (s.setInput es).status = s.status := rfl
@[simp] theorem State.setInput_asm (s : State) (es : List PortEvent) : (s.setInput es).asm = s.asm := rfl
@[simp] theorem State.setInput_input (s : State) (es : List PortEvent) : (s.setInput es).input = es := rfl
@[simp] theorem State.setInput_rsp (s : State) (es : List PortEvent) : (s.setInput es).rsp = s.rsp := rfl
@[simp] theorem State.setInput_pix (s : State) (es : List PortEvent) : (s.setInput es).pix = s.pix := rfl
@[simp] theorem State.setInput_fontPort (s : State) (es : List PortEvent) : (s.setInput es).fontPort = s.fontPort := rfl

/-! ## `pushRsp` -/

@[simp] theorem State.pushRsp_params (s : State) (w : Word) : (s.pushRsp w).params = s.params := rfl
@[simp] theorem State.pushRsp_epoch (s : State) (w : Word) : (s.pushRsp w).epoch = s.epoch := rfl
@[simp] theorem State.pushRsp_cur (s : State) (w : Word) : (s.pushRsp w).cur = s.cur := rfl
@[simp] theorem State.pushRsp_prev (s : State) (w : Word) : (s.pushRsp w).prev = s.prev := rfl
@[simp] theorem State.pushRsp_orient (s : State) (w : Word) : (s.pushRsp w).orient = s.orient := rfl
@[simp] theorem State.pushRsp_pen (s : State) (w : Word) : (s.pushRsp w).pen = s.pen := rfl
@[simp] theorem State.pushRsp_invert (s : State) (w : Word) : (s.pushRsp w).invert = s.invert := rfl
@[simp] theorem State.pushRsp_font (s : State) (w : Word) : (s.pushRsp w).font = s.font := rfl
@[simp] theorem State.pushRsp_fsolid (s : State) (w : Word) : (s.pushRsp w).fsolid = s.fsolid := rfl
@[simp] theorem State.pushRsp_fspx (s : State) (w : Word) : (s.pushRsp w).fspx = s.fspx := rfl
@[simp] theorem State.pushRsp_fspy (s : State) (w : Word) : (s.pushRsp w).fspy = s.fspy := rfl
@[simp] theorem State.pushRsp_status (s : State) (w : Word) : (s.pushRsp w).status = s.status := rfl
@[simp] theorem State.pushRsp_asm (s : State) (w : Word) : (s.pushRsp w).asm = s.asm := rfl
@[simp] theorem State.pushRsp_input (s : State) (w : Word) : (s.pushRsp w).input = s.input := rfl
@[simp] theorem State.pushRsp_rsp (s : State) (w : Word) : (s.pushRsp w).rsp = s.rsp ++ [w] := rfl
@[simp] theorem State.pushRsp_pix (s : State) (w : Word) : (s.pushRsp w).pix = s.pix := rfl
@[simp] theorem State.pushRsp_fontPort (s : State) (w : Word) : (s.pushRsp w).fontPort = s.fontPort := rfl

/-! ## `pushPix` -/

@[simp] theorem State.pushPix_params (s : State) (rs : List PixRecord) : (s.pushPix rs).params = s.params := rfl
@[simp] theorem State.pushPix_epoch (s : State) (rs : List PixRecord) : (s.pushPix rs).epoch = s.epoch := rfl
@[simp] theorem State.pushPix_cur (s : State) (rs : List PixRecord) : (s.pushPix rs).cur = s.cur := rfl
@[simp] theorem State.pushPix_prev (s : State) (rs : List PixRecord) : (s.pushPix rs).prev = s.prev := rfl
@[simp] theorem State.pushPix_orient (s : State) (rs : List PixRecord) : (s.pushPix rs).orient = s.orient := rfl
@[simp] theorem State.pushPix_pen (s : State) (rs : List PixRecord) : (s.pushPix rs).pen = s.pen := rfl
@[simp] theorem State.pushPix_invert (s : State) (rs : List PixRecord) : (s.pushPix rs).invert = s.invert := rfl
@[simp] theorem State.pushPix_font (s : State) (rs : List PixRecord) : (s.pushPix rs).font = s.font := rfl
@[simp] theorem State.pushPix_fsolid (s : State) (rs : List PixRecord) : (s.pushPix rs).fsolid = s.fsolid := rfl
@[simp] theorem State.pushPix_fspx (s : State) (rs : List PixRecord) : (s.pushPix rs).fspx = s.fspx := rfl
@[simp] theorem State.pushPix_fspy (s : State) (rs : List PixRecord) : (s.pushPix rs).fspy = s.fspy := rfl
@[simp] theorem State.pushPix_status (s : State) (rs : List PixRecord) : (s.pushPix rs).status = s.status := rfl
@[simp] theorem State.pushPix_asm (s : State) (rs : List PixRecord) : (s.pushPix rs).asm = s.asm := rfl
@[simp] theorem State.pushPix_input (s : State) (rs : List PixRecord) : (s.pushPix rs).input = s.input := rfl
@[simp] theorem State.pushPix_rsp (s : State) (rs : List PixRecord) : (s.pushPix rs).rsp = s.rsp := rfl
@[simp] theorem State.pushPix_pix (s : State) (rs : List PixRecord) : (s.pushPix rs).pix = s.pix ++ rs := rfl
@[simp] theorem State.pushPix_fontPort (s : State) (rs : List PixRecord) : (s.pushPix rs).fontPort = s.fontPort := rfl

/-! ## `callFont` -/

@[simp] theorem State.callFont_params (s : State) (cs : List FontCall) : (s.callFont cs).params = s.params := rfl
@[simp] theorem State.callFont_epoch (s : State) (cs : List FontCall) : (s.callFont cs).epoch = s.epoch := rfl
@[simp] theorem State.callFont_cur (s : State) (cs : List FontCall) : (s.callFont cs).cur = s.cur := rfl
@[simp] theorem State.callFont_prev (s : State) (cs : List FontCall) : (s.callFont cs).prev = s.prev := rfl
@[simp] theorem State.callFont_orient (s : State) (cs : List FontCall) : (s.callFont cs).orient = s.orient := rfl
@[simp] theorem State.callFont_pen (s : State) (cs : List FontCall) : (s.callFont cs).pen = s.pen := rfl
@[simp] theorem State.callFont_invert (s : State) (cs : List FontCall) : (s.callFont cs).invert = s.invert := rfl
@[simp] theorem State.callFont_font (s : State) (cs : List FontCall) : (s.callFont cs).font = s.font := rfl
@[simp] theorem State.callFont_fsolid (s : State) (cs : List FontCall) : (s.callFont cs).fsolid = s.fsolid := rfl
@[simp] theorem State.callFont_fspx (s : State) (cs : List FontCall) : (s.callFont cs).fspx = s.fspx := rfl
@[simp] theorem State.callFont_fspy (s : State) (cs : List FontCall) : (s.callFont cs).fspy = s.fspy := rfl
@[simp] theorem State.callFont_status (s : State) (cs : List FontCall) : (s.callFont cs).status = s.status := rfl
@[simp] theorem State.callFont_asm (s : State) (cs : List FontCall) : (s.callFont cs).asm = s.asm := rfl
@[simp] theorem State.callFont_input (s : State) (cs : List FontCall) : (s.callFont cs).input = s.input := rfl
@[simp] theorem State.callFont_rsp (s : State) (cs : List FontCall) : (s.callFont cs).rsp = s.rsp := rfl
@[simp] theorem State.callFont_pix (s : State) (cs : List FontCall) : (s.callFont cs).pix = s.pix := rfl
@[simp] theorem State.callFont_fontPort (s : State) (cs : List FontCall) : (s.callFont cs).fontPort = s.fontPort ++ cs := rfl

/-! ## The state after reset -/

@[simp] theorem State.afterReset_params (p : Params) (e : Nat) : (State.afterReset p e).params = p := rfl
@[simp] theorem State.afterReset_epoch (p : Params) (e : Nat) : (State.afterReset p e).epoch = e := rfl
@[simp] theorem State.afterReset_cur (p : Params) (e : Nat) : (State.afterReset p e).cur = [] := rfl
@[simp] theorem State.afterReset_prev (p : Params) (e : Nat) : (State.afterReset p e).prev = [] := rfl
@[simp] theorem State.afterReset_orient (p : Params) (e : Nat) : (State.afterReset p e).orient = 0 := rfl
@[simp] theorem State.afterReset_pen (p : Params) (e : Nat) : (State.afterReset p e).pen = false := rfl
@[simp] theorem State.afterReset_invert (p : Params) (e : Nat) : (State.afterReset p e).invert = false := rfl
@[simp] theorem State.afterReset_font (p : Params) (e : Nat) : (State.afterReset p e).font = 0 := rfl
@[simp] theorem State.afterReset_fsolid (p : Params) (e : Nat) : (State.afterReset p e).fsolid = false := rfl
@[simp] theorem State.afterReset_fspx (p : Params) (e : Nat) : (State.afterReset p e).fspx = 0 := rfl
@[simp] theorem State.afterReset_fspy (p : Params) (e : Nat) : (State.afterReset p e).fspy = 0 := rfl
@[simp] theorem State.afterReset_status (p : Params) (e : Nat) : (State.afterReset p e).status = 0 := rfl
@[simp] theorem State.afterReset_asm (p : Params) (e : Nat) : (State.afterReset p e).asm = [] := rfl
@[simp] theorem State.afterReset_input (p : Params) (e : Nat) : (State.afterReset p e).input = [] := rfl
@[simp] theorem State.afterReset_rsp (p : Params) (e : Nat) : (State.afterReset p e).rsp = [] := rfl
@[simp] theorem State.afterReset_pix (p : Params) (e : Nat) : (State.afterReset p e).pix = [] := rfl
@[simp] theorem State.afterReset_fontPort (p : Params) (e : Nat) : (State.afterReset p e).fontPort = [] := rfl

end Sys2Proof.Machine
end

