-- ==== Sys2Proof/Laws/Memory.lean ====
section
/-! SUPPORT. What reading, writing and filling a memory do, and that writing and filling keep the canonical form. -/

namespace Sys2Proof.Machine

@[simp] theorem Memory.read?_nil (i : Nat) : Memory.read? [] i = none := rfl

theorem Memory.read?_cons (a : Nat) (b : Byte) (m : Memory) (i : Nat) :
    Memory.read? ((a, b) :: m) i = if a = i then some b else Memory.read? m i := rfl

/-- A read after a write gives the written byte at its index and the old answer everywhere else. -/
theorem Memory.read?_write (m : Memory) (i j : Nat) (v : Byte) :
    Memory.read? (Memory.write m i v) j = if i = j then some v else Memory.read? m j := by
  induction m with
  | nil => simp [Memory.write, Memory.read?_cons]
  | cons c m ih =>
    obtain ⟨a, b⟩ := c
    simp only [Memory.write]
    split
    · rfl
    · split
      · rename_i h
        subst h
        simp only [Memory.read?_cons]
        split <;> rfl
      · rename_i h
        simp only [Memory.read?_cons, ih]
        split
        · rename_i h'
          subst h'
          rw [if_neg h]
        · rfl

theorem Memory.mem_write {m : Memory} {i : Nat} {v : Byte} {c : Host.Cell} (h : c ∈ Memory.write m i v) :
    c = (i, v) ∨ c ∈ m := by
  induction m with
  | nil => simpa [Memory.write] using h
  | cons d m ih =>
    simp only [Memory.write] at h
    split at h
    · simpa using h
    · split at h
      · rcases List.mem_cons.mp h with h | h
        · exact .inl h
        · exact .inr (List.mem_cons_of_mem _ h)
      · rcases List.mem_cons.mp h with h | h
        · exact .inr (by simp [h])
        · exact (ih h).imp id (List.mem_cons_of_mem _)

/-- Writing keeps the canonical form. -/
theorem Memory.write_wf {m : Memory} (h : Memory.wf m) (i : Nat) (v : Byte) : Memory.wf (Memory.write m i v) := by
  induction m with
  | nil => simp [Memory.write]
  | cons c m ih =>
    obtain ⟨a, b⟩ := c
    replace h := List.pairwise_cons.mp h
    simp only [Memory.write]
    split
    · rename_i hia
      refine List.pairwise_cons.mpr ⟨fun d hd => ?_, List.pairwise_cons.mpr h⟩
      rcases List.mem_cons.mp hd with rfl | hd
      · exact hia
      · exact hia.trans (h.1 d hd)
    · split
      · rename_i hia
        exact List.pairwise_cons.mpr ⟨fun d hd => by simpa [hia] using h.1 d hd, h.2⟩
      · refine List.pairwise_cons.mpr ⟨fun d hd => ?_, ih h.2⟩
        rcases Memory.mem_write hd with rfl | hd
        · simp only; omega
        · exact h.1 d hd

/-- Writing inside a plane keeps the indices inside it. -/
theorem Memory.write_inside {n : Nat} {m : Memory} (h : Memory.inside n m) {i : Nat} (hi : i < n) (v : Byte) :
    Memory.inside n (Memory.write m i v) := by
  intro c hc
  rcases Memory.mem_write hc with rfl | hc
  · exact hi
  · exact h c hc

theorem Memory.read?_map (l : List Nat) (f : Nat → Byte) (i : Nat) :
    Memory.read? (l.map (fun k => (k, f k))) i = if i ∈ l then some (f i) else none := by
  induction l with
  | nil => simp
  | cons a l ih =>
    simp only [List.map_cons, Memory.read?_cons, ih, List.mem_cons]
    by_cases h : a = i
    · simp [h]
    · simp [h, Ne.symm h]

/-- A filled memory answers its function inside and nothing outside. -/
theorem Memory.read?_fill (n : Nat) (f : Nat → Byte) (i : Nat) :
    Memory.read? (Memory.fill n f) i = if i < n then some (f i) else none := by
  simp [Memory.fill, Memory.read?_map]

/-- Filling gives the canonical form. -/
theorem Memory.fill_wf (n : Nat) (f : Nat → Byte) : Memory.wf (Memory.fill n f) := by
  simp only [Memory.wf, Memory.fill, List.pairwise_map]
  exact List.pairwise_lt_range

theorem Memory.fill_inside (n : Nat) (f : Nat → Byte) : Memory.inside n (Memory.fill n f) := by
  intro c hc
  obtain ⟨i, hi, rfl⟩ := List.mem_map.mp hc
  exact List.mem_range.mp hi

/-- An index outside a plane is not listed. -/
theorem Memory.read?_outside {n : Nat} {m : Memory} (h : Memory.inside n m) {i : Nat} (hi : n ≤ i) :
    Memory.read? m i = none := by
  induction m with
  | nil => rfl
  | cons c m ih =>
    obtain ⟨a, b⟩ := c
    have ha : a < n := h (a, b) (by simp)
    rw [Memory.read?_cons, if_neg (by omega)]
    exact ih (fun d hd => h d (List.mem_cons_of_mem _ hd))

end Sys2Proof.Machine
end

