-- ==== Sys2Proof/Laws/Operands.lean ====
section
/-! SUPPORT. What the mapper, the addressing and the operand forms give: ranges, injectivity, inverses. -/

namespace Sys2Proof

/-! ## An instance the spec admits -/

theorem Params.wf_geometry {p : Params} (h : p.wf = true) : 1 ≤ p.v ∧ p.v ≤ 32767 ∧ 1 ≤ p.h ∧ p.h ≤ 32767 := by
  simp only [Params.wf, Bool.and_eq_true, decide_eq_true_eq] at h
  tauto

theorem Params.wf_fontCount {p : Params} (h : p.wf = true) : 1 ≤ p.fontCount := by
  simp only [Params.wf, Bool.and_eq_true, Bool.not_eq_true', List.isEmpty_eq_false_iff] at h
  exact List.length_pos_iff.mpr h.1.2

theorem Params.wf_font {p : Params} (h : p.wf = true) {f : Font} (hf : f ∈ p.fonts) : f.wf = true := by
  simp only [Params.wf, Bool.and_eq_true, List.all_eq_true] at h
  exact h.2 f hf

theorem Font.wf_ranges {f : Font} (h : f.wf = true) :
    1 ≤ f.height ∧ f.height ≤ 16 ∧ f.maxWidth ≤ 255 ∧ f.firstCode ≤ 255 ∧ f.glyphs.length ≤ 256 := by
  simp only [Font.wf, Bool.and_eq_true, decide_eq_true_eq] at h
  tauto

theorem Params.metrics_of_lt {p : Params} {f : Nat} (h : f < p.fontCount) :
    p.metrics f = ⟨p.fonts[f].height, p.fonts[f].maxWidth, p.fonts[f].firstCode, p.fonts[f].glyphs.length⟩ := by
  simp [Params.metrics, List.getElem?_eq_getElem h]

/-- A font the block can select is at most 255 columns wide. -/
theorem Params.metrics_maxWidth_le {p : Params} (h : p.wf = true) {f : Nat} (hf : f < p.fontCount) :
    (p.metrics f).maxWidth ≤ 255 := by
  rw [Params.metrics_of_lt hf]
  exact (Font.wf_ranges (p.wf_font h (List.getElem_mem hf))).2.2.1

/-! ## Geometry -/

/-- The bits of a run fit its bytes. -/
theorem Params.h_le_bsh (p : Params) : p.h ≤ 8 * p.bsh := by unfold Params.bsh; omega

/-- The run of a plane byte is in range. -/
theorem Params.div_bsh_lt {p : Params} {i : Nat} (h : i < p.planeBytes) : i / p.bsh < p.v :=
  Nat.div_lt_of_lt_mul (by rwa [Nat.mul_comm])

end Sys2Proof

namespace Sys2Proof.Machine

/-- A buffer pixel of the plane (R51). -/
abbrev BufferPixel.inside (p : Params) (q : BufferPixel) : Prop := q.run < p.v ∧ q.pos < p.h

theorem orient_cases : ∀ o : BitVec 2, o = 0 ∨ o = 1 ∨ o = 2 ∨ o = 3 := by decide

/-- A mapped pixel lies in the plane, and its logical position in the logical rectangle. -/
theorem mapPixel_inside {p : Params} {o : BitVec 2} {x y : Int} {q : BufferPixel} (h : mapPixel p o x y = some q) :
    q.inside p ∧ 0 ≤ x ∧ x < p.sizeX o ∧ 0 ≤ y ∧ y < p.sizeY o := by
  rcases orient_cases o with rfl | rfl | rfl | rfl <;>
    simp [mapPixel, Params.sizeX, Params.sizeY, BufferPixel.inside] at h ⊢ <;>
    obtain ⟨_, rfl⟩ := h <;> simp only <;> omega

/-- Inside the logical rectangle every position is mapped. -/
theorem mapPixel_isSome {p : Params} {o : BitVec 2} {x y : Int} (hx : 0 ≤ x) (hx' : x < p.sizeX o) (hy : 0 ≤ y)
    (hy' : y < p.sizeY o) : ∃ q, mapPixel p o x y = some q := by
  rcases orient_cases o with rfl | rfl | rfl | rfl <;> simp [mapPixel, Params.sizeX, Params.sizeY] at hx' hy' ⊢ <;> omega

/-- The mapper is injective where it maps. -/
theorem mapPixel_injective {p : Params} {o : BitVec 2} {x y x' y' : Int} {q : BufferPixel}
    (h : mapPixel p o x y = some q) (h' : mapPixel p o x' y' = some q) : x = x' ∧ y = y' := by
  rcases orient_cases o with rfl | rfl | rfl | rfl <;> simp [mapPixel] at h h' <;> obtain ⟨_, rfl⟩ := h <;>
    obtain ⟨_, h'⟩ := h' <;> simp only [BufferPixel.mk.injEq] at h' <;> omega

/-- A bit number is 0 to 7. -/
theorem addr_bit_lt (p : Params) (q : BufferPixel) : (addr p q).bit < 8 := by simp only [addr]; omega

/-- A pixel of the plane has its byte in the plane (R53). -/
theorem addr_idx_lt {p : Params} {q : BufferPixel} (h : q.inside p) : (addr p q).idx < p.planeBytes := by
  have h1 : q.pos / 8 < p.bsh := by unfold Params.bsh; have := h.2; omega
  have h2 : (q.run + 1) * p.bsh ≤ p.v * p.bsh := Nat.mul_le_mul_right _ h.1
  simp only [addr, Params.planeBytes]
  rw [Nat.add_mul] at h2
  omega

/-- The run and the byte within the run of a pixel, back from its byte index. -/
theorem addr_idx_div {p : Params} {q : BufferPixel} (h : q.pos < p.h) :
    (addr p q).idx / p.bsh = q.run ∧ (addr p q).idx % p.bsh = q.pos / 8 := by
  have h1 : q.pos / 8 < p.bsh := by unfold Params.bsh; omega
  have hb : 0 < p.bsh := by omega
  simp only [addr]
  constructor
  · rw [Nat.mul_comm, Nat.mul_add_div hb, Nat.div_eq_of_lt h1, Nat.add_zero]
  · rw [Nat.mul_comm, Nat.mul_add_mod, Nat.mod_eq_of_lt h1]

/-- Two pixels of the plane never share a bit (R54). -/
theorem addr_injective {p : Params} {q q' : BufferPixel} (h : q.pos < p.h) (h' : q'.pos < p.h)
    (heq : addr p q = addr p q') : q = q' := by
  have hd := addr_idx_div h
  have hd' := addr_idx_div h'
  have hb : (addr p q).bit = (addr p q').bit := by rw [heq]
  rw [heq] at hd
  simp only [addr] at hb
  obtain ⟨r, t⟩ := q
  obtain ⟨r', t'⟩ := q'
  simp only [BufferPixel.mk.injEq] at *
  omega

/-- A font selector gives a font of the provider (R28, R114). -/
theorem fontFor_lt {p : Params} (h : p.wf = true) (sel : Byte) : (fontFor p sel).toNat < p.fontCount := by
  have h1 := p.wf_fontCount h
  simp only [fontFor, BitVec.toNat_ofNat]
  exact lt_of_le_of_lt (Nat.mod_le _ _) (by omega)

theorem fontFor_toNat (p : Params) (sel : Byte) : (fontFor p sel).toNat = min sel.toNat (p.fontCount - 1) := by
  have := sel.isLt
  simp only [fontFor, BitVec.toNat_ofNat]
  exact Nat.mod_eq_of_lt (by omega)

end Sys2Proof.Machine
end

