-- ==== Sys2Proof/Laws/Ops.lean ====
section
/-! SUPPORT. What the shared operations do: reading back a plane byte or bit, `Plot` and a sequence of `Plot`s, the
fault entry and reset. -/

namespace Sys2Proof.Machine

/-! ## Bytes -/

theorem State.readCur_congr {s t : State} (hc : t.cur = s.cur) (he : t.epoch = s.epoch) (i : Nat) :
    t.readCur i = s.readCur i := by simp [State.readCur, hc, he]

theorem State.readPrev_congr {s t : State} (hp : t.prev = s.prev) (he : t.epoch = s.epoch) (i : Nat) :
    t.readPrev i = s.readPrev i := by simp [State.readPrev, hp, he]

theorem State.readCur_writeCur (s : State) (i j : Nat) (v : Byte) :
    (s.writeCur i v).readCur j = if i = j then v else s.readCur j := by
  simp only [State.readCur, State.writeCur, State.setCur_cur, State.setCur_epoch, Memory.read?_write]
  split <;> rfl

theorem State.readCur_fill (s : State) (n : Nat) (f : Nat → Byte) (i : Nat) :
    (s.setCur (Memory.fill n f)).readCur i = if i < n then f i else Config.planeByte s.epoch .cur i := by
  simp only [State.readCur, State.setCur_cur, State.setCur_epoch, Memory.read?_fill]
  split <;> rfl

theorem State.readPrev_fill (s : State) (n : Nat) (f : Nat → Byte) (i : Nat) :
    (s.setPrev (Memory.fill n f)).readPrev i = if i < n then f i else Config.planeByte s.epoch .prev i := by
  simp only [State.readPrev, State.setPrev_prev, State.setPrev_epoch, Memory.read?_fill]
  split <;> rfl

theorem State.readCur_outside {s : State} (h : Memory.inside s.params.planeBytes s.cur) {i : Nat}
    (hi : s.params.planeBytes ≤ i) : s.readCur i = Config.planeByte s.epoch .cur i := by
  simp [State.readCur, Memory.read?_outside h hi]

/-- Storing a bit changes that bit alone. -/
theorem storeBit_getLsbD (b : Byte) {bit : Nat} (hbit : bit < 8) (white : Bool) (k : Nat) :
    (storeBit b bit white).getLsbD k = if k = bit then !white else b.getLsbD k := by
  unfold storeBit
  by_cases hk : k < 8
  · have hmask : (1#8 <<< bit).getLsbD k = decide (k = bit) := by
      simp only [BitVec.getLsbD_shiftLeft, BitVec.getLsbD_one, hk, decide_true, Bool.true_and]
      by_cases h : k = bit
      · simp [h]
      · have : k < bit ∨ k - bit ≠ 0 := by omega
        rcases this with h' | h' <;> simp [h, h']
    cases white
    · simp only [Bool.false_eq_true, if_false, BitVec.getLsbD_or, hmask]
      by_cases h : k = bit <;> simp [h]
    · simp only [if_true, BitVec.getLsbD_and, BitVec.getLsbD_not, hmask, hk]
      by_cases h : k = bit <;> simp [h]
  · have h : k ≠ bit := by omega
    rw [if_neg h, BitVec.getLsbD_of_ge _ k (by omega), BitVec.getLsbD_of_ge _ k (by omega)]

/-! ## Bits -/

theorem State.curBit_congr {s t : State} (hc : t.cur = s.cur) (he : t.epoch = s.epoch) (a : BitAddress) :
    t.curBit a = s.curBit a := by simp [State.curBit, State.readCur_congr hc he]

theorem State.curBit_writePixel (s : State) (q : BufferPixel) (white : Bool) (a : BitAddress) :
    (s.writePixel q white).curBit a = if a = addr s.params q then !white else s.curBit a := by
  simp only [State.curBit, State.writePixel, State.readCur_writeCur]
  by_cases h : (addr s.params q).idx = a.idx
  · rw [if_pos h, storeBit_getLsbD _ (addr_bit_lt _ _), h]
    congr 1
    simp only [eq_iff_iff]
    constructor
    · intro hb
      obtain ⟨i, b⟩ := a
      simp only at h hb
      rw [← h, hb]
    · rintro rfl; rfl
  · rw [if_neg h, if_neg (by rintro rfl; exact h rfl)]

/-- A byte whose eight bits are as before is as before. -/
theorem State.readCur_of_curBit {s t : State} {i : Nat} (h : ∀ b, t.curBit ⟨i, b⟩ = s.curBit ⟨i, b⟩) :
    t.readCur i = s.readCur i :=
  BitVec.eq_of_getLsbD_eq (fun b _ => h b)

/-! ## `Plot` -/

/-- The bit that a dot plots to, `none` out of bounds. -/
def State.target (s : State) (d : Dot) : Option BufferPixel := mapPixel s.params s.orient d.x d.y

/-- `Plot` changes `CUR` and nothing else. -/
theorem State.plot_eq (s : State) (d : Dot) : s.plot d = s.setCur (s.plot d).cur := by
  unfold State.plot
  split <;> rfl

/-- `Plot` at a position in bounds stores the bit of R144 at its pixel and leaves every other bit. -/
theorem State.plot_curBit_of_mapped {s : State} {d : Dot} {q : BufferPixel} (h : s.target d = some q) (a : BitAddress) :
    (s.plot d).curBit a = if a = addr s.params q then bitFor d.c q s.invert else s.curBit a := by
  unfold State.target at h
  simp only [State.plot, h, State.curBit_writePixel, bitFor]

/-- `Plot` out of bounds does nothing (R145). -/
theorem State.plot_of_unmapped {s : State} {d : Dot} (h : s.target d = none) : s.plot d = s := by
  unfold State.target at h
  simp only [State.plot, h]

/-- A sequence of `Plot`s changes `CUR` and nothing else. -/
theorem State.plotAll_eq (s : State) (ds : List Dot) : s.plotAll ds = s.setCur (s.plotAll ds).cur := by
  induction ds generalizing s with
  | nil => rfl
  | cons d ds ih =>
    calc (s.plot d).plotAll ds = (s.plot d).setCur ((s.plot d).plotAll ds).cur := ih _
      _ = (s.setCur (s.plot d).cur).setCur ((s.plot d).plotAll ds).cur := by rw [← State.plot_eq]

@[simp] theorem State.plotAll_nil (s : State) : s.plotAll [] = s := rfl

@[simp] theorem State.plotAll_cons (s : State) (d : Dot) (ds : List Dot) :
    s.plotAll (d :: ds) = (s.plot d).plotAll ds := rfl

theorem State.plotAll_append (s : State) (ds es : List Dot) : s.plotAll (ds ++ es) = (s.plotAll ds).plotAll es := by
  simp [State.plotAll]

/-- What `Plot` leaves in `CUR` depends on the parameters, `CUR`, the orientation and the invert flag alone. -/
theorem State.plot_cur_congr {s t : State} (hp : t.params = s.params) (he : t.epoch = s.epoch) (hc : t.cur = s.cur)
    (ho : t.orient = s.orient) (hi : t.invert = s.invert) (d : Dot) : (t.plot d).cur = (s.plot d).cur := by
  unfold State.plot
  rw [hp, ho]
  split
  · exact hc
  · simp only [State.writePixel, State.writeCur, State.setCur_cur, hp, hi, hc, State.readCur_congr hc he]

/-- So does what a sequence of `Plot`s leaves in `CUR`. -/
theorem State.plotAll_cur_congr {s t : State} (hp : t.params = s.params) (he : t.epoch = s.epoch) (hc : t.cur = s.cur)
    (ho : t.orient = s.orient) (hi : t.invert = s.invert) (ds : List Dot) :
    (t.plotAll ds).cur = (s.plotAll ds).cur := by
  induction ds generalizing s t with
  | nil => exact hc
  | cons d ds ih =>
    refine ih ?_ ?_ (State.plot_cur_congr hp he hc ho hi d) ?_ ?_ <;> rw [State.plot_eq t, State.plot_eq s] <;> simpa

/-- A sequence of `Plot`s on a state that differs from `s` in fields that `Plot` does not read: that state, with the
`CUR` that the sequence leaves in `s`. -/
theorem State.plotAll_elsewhere {s t : State} (hp : t.params = s.params) (he : t.epoch = s.epoch) (hc : t.cur = s.cur)
    (ho : t.orient = s.orient) (hi : t.invert = s.invert) (ds : List Dot) :
    t.plotAll ds = t.setCur (s.plotAll ds).cur := by
  rw [State.plotAll_eq, State.plotAll_cur_congr hp he hc ho hi]

theorem State.plot_target (s : State) (d e : Dot) : (s.plot d).target e = s.target e := by
  rw [State.plot_eq]; rfl

/-- A bit that no dot of a sequence maps to keeps its value. -/
theorem State.plotAll_curBit_of_missed {s : State} {ds : List Dot} {a : BitAddress}
    (h : ∀ d ∈ ds, ∀ q, s.target d = some q → a ≠ addr s.params q) : (s.plotAll ds).curBit a = s.curBit a := by
  induction ds generalizing s with
  | nil => rfl
  | cons d ds ih =>
    rw [State.plotAll_cons, ih]
    · rcases hd : s.target d with _ | q
      · rw [State.plot_of_unmapped hd]
      · rw [State.plot_curBit_of_mapped hd, if_neg (h d (by simp) q hd)]
    · intro e he q hq
      rw [State.plot_target] at hq
      rw [State.plot_eq]
      exact h e (by simp [he]) q hq

/-- A bit that some dot maps to, where all the dots that map to it store the same value, gets that value. -/
theorem State.plotAll_curBit_of_hit {s : State} {ds : List Dot} {a : BitAddress} {v : Bool}
    (hall : ∀ d ∈ ds, ∀ q, s.target d = some q → a = addr s.params q → bitFor d.c q s.invert = v)
    (hex : ∃ d ∈ ds, ∃ q, s.target d = some q ∧ a = addr s.params q) : (s.plotAll ds).curBit a = v := by
  induction ds generalizing s with
  | nil => simp at hex
  | cons d ds ih =>
    rw [State.plotAll_cons]
    have hparams : (s.plot d).params = s.params := by rw [State.plot_eq]; rfl
    have hinv : (s.plot d).invert = s.invert := by rw [State.plot_eq]; rfl
    by_cases hlater : ∃ e ∈ ds, ∃ q, s.target e = some q ∧ a = addr s.params q
    · refine ih (fun e he q hq ha => ?_) ?_
      · rw [State.plot_target] at hq
        rw [hparams] at ha
        rw [hinv]
        exact hall e (by simp [he]) q hq ha
      · simpa only [State.plot_target, hparams] using hlater
    · rw [State.plotAll_curBit_of_missed]
      · obtain ⟨e, he, q, hq, ha⟩ := hex
        rcases List.mem_cons.mp he with rfl | he
        · rw [State.plot_curBit_of_mapped hq, if_pos ha]
          exact hall e (by simp) q hq ha
        · exact absurd ⟨e, he, q, hq, ha⟩ hlater
      · intro e he q hq ha
        rw [State.plot_target] at hq
        rw [hparams] at ha
        exact hlater ⟨e, he, q, hq, ha⟩

/-- The bits after plotting positions in one colour: the bit of R144 at every pixel that a position maps to, the old
bit everywhere else (the consequence R144 draws). -/
theorem State.plotAll_paint_curBit {s : State} {c : Colour} {ps : List (Int × Int)} {q : BufferPixel}
    (hq : q.inside s.params) :
    (s.plotAll (paint c ps)).curBit (addr s.params q) =
      if (∃ p ∈ ps, mapPixel s.params s.orient p.1 p.2 = some q) then bitFor c q s.invert
      else s.curBit (addr s.params q) := by
  have same : ∀ {p : Int × Int} {q' : BufferPixel}, mapPixel s.params s.orient p.1 p.2 = some q' →
      addr s.params q = addr s.params q' → q = q' :=
    fun hp ha => addr_injective hq.2 (mapPixel_inside hp).1.2 ha
  split
  · rename_i hex
    obtain ⟨p, hp, hmap⟩ := hex
    refine State.plotAll_curBit_of_hit ?_ ⟨⟨p.1, p.2, c⟩, List.mem_map.mpr ⟨p, hp, rfl⟩, q, hmap, rfl⟩
    intro d hd q' hq' ha
    obtain ⟨p', _, rfl⟩ := List.mem_map.mp hd
    obtain rfl := same (p := p') hq' ha
    rfl
  · rename_i hno
    refine State.plotAll_curBit_of_missed ?_
    intro d hd q' hq' ha
    obtain ⟨p', hp', rfl⟩ := List.mem_map.mp hd
    obtain rfl := same (p := p') hq' ha
    exact hno ⟨p', hp', hq'⟩

/-- Bits that belong to no pixel keep their value: pad bits, and every bit outside the plane (R55). -/
theorem State.plotAll_curBit_of_no_pixel {s : State} {ds : List Dot} {a : BitAddress}
    (h : ∀ q : BufferPixel, q.inside s.params → a ≠ addr s.params q) : (s.plotAll ds).curBit a = s.curBit a :=
  State.plotAll_curBit_of_missed (fun _ _ q hq => h q (mapPixel_inside hq).1)

/-! ## The planes keep their form -/

theorem State.plot_cur_wf {s : State} (h : Memory.wf s.cur) (d : Dot) : Memory.wf (s.plot d).cur := by
  unfold State.plot
  split
  · exact h
  · exact Memory.write_wf h _ _

theorem State.plot_cur_inside {s : State} (h : Memory.inside s.params.planeBytes s.cur) (d : Dot) :
    Memory.inside s.params.planeBytes (s.plot d).cur := by
  unfold State.plot
  split
  · exact h
  · rename_i q hq
    exact Memory.write_inside h (addr_idx_lt (mapPixel_inside hq).1) _

theorem State.plotAll_cur_form {s : State} (hw : Memory.wf s.cur) (hi : Memory.inside s.params.planeBytes s.cur)
    (ds : List Dot) : Memory.wf (s.plotAll ds).cur ∧ Memory.inside s.params.planeBytes (s.plotAll ds).cur := by
  induction ds generalizing s with
  | nil => exact ⟨hw, hi⟩
  | cons d ds ih =>
    have hp : (s.plot d).params = s.params := by rw [State.plot_eq]; rfl
    have := ih (s := s.plot d) (State.plot_cur_wf hw d) (by rw [hp]; exact State.plot_cur_inside hi d)
    rwa [hp] at this

/-! ## The fault and reset -/

theorem State.enterFault_eq (s : State) (cause : FaultCause) :
    s.enterFault cause = { s with asm := [], status := faultStatus cause } := rfl

theorem State.enterFault_faulted (s : State) (cause : FaultCause) :
    (s.enterFault cause).faulted = true ∧ (s.enterFault cause).fcause = causeCode cause := by
  cases cause <;> simp [State.faulted, State.fcause, State.enterFault, faultStatus, causeCode]

theorem State.assertReset_eq (s : State) :
    s.assertReset = { State.afterReset s.params (s.epoch + 1) with input := s.input } := rfl

theorem State.faulted_afterReset (p : Params) (e : Nat) : (State.afterReset p e).faulted = false := by
  simp [State.faulted]

end Sys2Proof.Machine
end

