-- ==== Sys2Proof/Laws/PerInstr.lean ====
section
/-! SUPPORT. For every command: its first word selects the row of the opcode map that bears its mnemonic and format
(R90), and its words number as that format says (R82). -/

namespace Sys2Proof.Laws.OpcodeMap

/-- The encoding of a command begins with a header that selects a row with the command's mnemonic and format, and has
as many words as the format says. -/
def Statement (i : Instr) : Prop :=
  ∃ (w : Word) (ws : List Word) (r : OpcodeRow),
    encode i = w :: ws ∧ r ∈ opcodeRows ∧ r.selects w = true ∧ r.mnemonic = i.mnemonic ∧ r.format = i.format ∧
      (encode i).length = i.format.words i.textLength

theorem setorient (sel : Byte) : Statement (.setorient sel) :=
  ⟨_, _, opcodeRows[0], rfl, by decide, by revert sel; decide, rfl, rfl, rfl⟩

theorem setpen (f : Bool) : Statement (.setpen f) :=
  ⟨_, _, opcodeRows[1], rfl, by decide, by cases f <;> rfl, rfl, rfl, rfl⟩

theorem setinv (f : Bool) : Statement (.setinv f) :=
  ⟨_, _, opcodeRows[2], rfl, by decide, by cases f <;> rfl, rfl, rfl, rfl⟩

theorem selfont (sel : Byte) : Statement (.selfont sel) :=
  ⟨_, _, opcodeRows[3], rfl, by decide, by revert sel; decide, rfl, rfl, rfl⟩

theorem setfsolid (f : Bool) : Statement (.setfsolid f) :=
  ⟨_, _, opcodeRows[4], rfl, by decide, by cases f <;> rfl, rfl, rfl, rfl⟩

theorem setfspx (v : Byte) : Statement (.setfspx v) :=
  ⟨_, _, opcodeRows[5], rfl, by decide, by revert v; decide, rfl, rfl, rfl⟩

theorem setfspy (v : Byte) : Statement (.setfspy v) :=
  ⟨_, _, opcodeRows[6], rfl, by decide, by revert v; decide, rfl, rfl, rfl⟩

theorem getorient : Statement .getorient :=
  ⟨_, _, opcodeRows[7], rfl, by decide, by rfl, rfl, rfl, rfl⟩

theorem sizex : Statement .sizex :=
  ⟨_, _, opcodeRows[8], rfl, by decide, by rfl, rfl, rfl, rfl⟩

theorem sizey : Statement .sizey :=
  ⟨_, _, opcodeRows[9], rfl, by decide, by rfl, rfl, rfl, rfl⟩

theorem getfont : Statement .getfont :=
  ⟨_, _, opcodeRows[10], rfl, by decide, by rfl, rfl, rfl, rfl⟩

theorem fontmax : Statement .fontmax :=
  ⟨_, _, opcodeRows[11], rfl, by decide, by rfl, rfl, rfl, rfl⟩

theorem charszx : Statement .charszx :=
  ⟨_, _, opcodeRows[12], rfl, by decide, by rfl, rfl, rfl, rfl⟩

theorem rdpix (x y : Word) : Statement (.rdpix x y) :=
  ⟨_, _, opcodeRows[13], rfl, by decide, by rfl, rfl, rfl, rfl⟩

theorem clear (c : Colour) : Statement (.clear c) :=
  ⟨_, _, opcodeRows[14], rfl, by decide, by cases c <;> rfl, rfl, rfl, rfl⟩

theorem point (x y : Word) (c : Colour) : Statement (.point x y c) :=
  ⟨_, _, opcodeRows[15], rfl, by decide, by cases c <;> rfl, rfl, rfl, rfl⟩

theorem line (x1 y1 x2 y2 : Word) (c : Colour) : Statement (.line x1 y1 x2 y2 c) :=
  ⟨_, _, opcodeRows[16], rfl, by decide, by cases c <;> rfl, rfl, rfl, rfl⟩

theorem dline (x0 y0 dx dy : Word) (c : Colour) : Statement (.dline x0 y0 dx dy c) :=
  ⟨_, _, opcodeRows[17], rfl, by decide, by cases c <;> rfl, rfl, rfl, rfl⟩

theorem rect (x1 y1 x2 y2 : Word) (c : Colour) : Statement (.rect x1 y1 x2 y2 c) :=
  ⟨_, _, opcodeRows[18], rfl, by decide, by cases c <;> rfl, rfl, rfl, rfl⟩

theorem drect (x0 y0 dx dy : Word) (c : Colour) : Statement (.drect x0 y0 dx dy c) :=
  ⟨_, _, opcodeRows[19], rfl, by decide, by cases c <;> rfl, rfl, rfl, rfl⟩

theorem circle (x0 y0 r : Word) (c : Colour) : Statement (.circle x0 y0 r c) :=
  ⟨_, _, opcodeRows[20], rfl, by decide, by cases c <;> rfl, rfl, rfl, rfl⟩

theorem gtext (x0 y0 : Word) (fg bg : Colour) (text : List Byte) : Statement (.gtext x0 y0 fg bg text) :=
  ⟨_, _, opcodeRows[21], rfl, by decide, by cases fg <;> cases bg <;> rfl, rfl, rfl, by simp [encode, Instr.format, Format.words, Instr.textLength]; omega⟩

theorem xfer : Statement .xfer :=
  ⟨_, _, opcodeRows[22], rfl, by decide, by rfl, rfl, rfl, rfl⟩

end Sys2Proof.Laws.OpcodeMap
end

