-- ==== Sys2Proof/Laws/Raster.lean ====
section
/-! SUPPORT. Which positions the primitives of the RasterOps engine plot. -/

namespace Sys2Proof.Machine

/-! ## Ranges -/

@[simp] theorem mem_upFrom (lo : Int) (n : Nat) (x : Int) : x ∈ upFrom lo n ↔ lo ≤ x ∧ x < lo + n := by
  induction n generalizing lo with
  | zero => simp [upFrom]
  | succ n ih => simp only [upFrom, List.mem_cons, ih]; omega

@[simp] theorem length_upFrom (lo : Int) (n : Nat) : (upFrom lo n).length = n := by
  induction n generalizing lo with
  | zero => rfl
  | succ n ih => simp [upFrom, ih]

@[simp] theorem mem_span (a b x : Int) : x ∈ span a b ↔ min a b ≤ x ∧ x ≤ max a b := by
  simp only [span, mem_upFrom]; omega

theorem length_span (a b : Int) : ((span a b).length : Int) = |b - a| + 1 := by
  simp only [span, length_upFrom, abs_eq_max_neg]; omega

/-! ## Rectangles and axis-parallel lines -/

@[simp] theorem mem_fillRectPoints (x1 y1 x2 y2 : Int) (p : Int × Int) :
    p ∈ fillRectPoints x1 y1 x2 y2 ↔
      (min x1 x2 ≤ p.1 ∧ p.1 ≤ max x1 x2) ∧ (min y1 y2 ≤ p.2 ∧ p.2 ≤ max y1 y2) := by
  obtain ⟨x, y⟩ := p
  simp only [fillRectPoints, List.mem_flatMap, List.mem_map, mem_span, Prod.mk.injEq]
  constructor
  · rintro ⟨x', hx, y', hy, rfl, rfl⟩; exact ⟨hx, hy⟩
  · rintro ⟨hx, hy⟩; exact ⟨x, hx, y, hy, rfl, rfl⟩

theorem mem_linePoints_vertical (x y1 y2 : Int) (p : Int × Int) :
    p ∈ linePoints x y1 x y2 ↔ p.1 = x ∧ min y1 y2 ≤ p.2 ∧ p.2 ≤ max y1 y2 := by
  obtain ⟨a, b⟩ := p
  by_cases h : y1 = y2
  · subst h
    simp [linePoints]
    omega
  · simp only [linePoints, h, and_false, if_false, if_true, List.mem_map, mem_span, Prod.mk.injEq]
    constructor
    · rintro ⟨y', hy, rfl, rfl⟩; exact ⟨rfl, hy⟩
    · rintro ⟨rfl, hy⟩; exact ⟨b, hy, rfl, rfl⟩

theorem mem_linePoints_horizontal (y x1 x2 : Int) (p : Int × Int) :
    p ∈ linePoints x1 y x2 y ↔ p.2 = y ∧ min x1 x2 ≤ p.1 ∧ p.1 ≤ max x1 x2 := by
  obtain ⟨a, b⟩ := p
  by_cases h : x1 = x2
  · subst h
    simp [linePoints]
    omega
  · simp only [linePoints, h, false_and, if_false, if_true, List.mem_map, mem_span, Prod.mk.injEq]
    constructor
    · rintro ⟨x', hx, rfl, rfl⟩; exact ⟨rfl, hx⟩
    · rintro ⟨rfl, hx⟩; exact ⟨a, hx, rfl, rfl⟩

theorem mem_drawRectPoints (x1 y1 x2 y2 : Int) (p : Int × Int) :
    p ∈ drawRectPoints x1 y1 x2 y2 ↔
      p ∈ fillRectPoints x1 y1 x2 y2 ∧ (p.1 = x1 ∨ p.1 = x2 ∨ p.2 = y1 ∨ p.2 = y2) := by
  obtain ⟨x, y⟩ := p
  simp only [drawRectPoints, List.mem_append, mem_linePoints_vertical, mem_linePoints_horizontal, mem_fillRectPoints]
  omega

/-! ## The general line -/

@[simp] theorem length_bresenham (steep : Bool) (dx dy ystep : Int) (n : Nat) (x y err : Int) :
    (bresenham steep dx dy ystep n x y err).length = n := by
  induction n generalizing x y err with
  | zero => rfl
  | succ n ih => rw [bresenham, List.length_cons]; split <;> rw [ih]

/-- How far the minor axis has moved after `k` turns of the loop that starts with error term `err`. -/
def minorSteps (dx dy err k : Int) : Int := (k * dy - err + dx - 1) / dx

theorem minorSteps_zero {dx dy err : Int} (h0 : 0 ≤ err) (h1 : err < dx) : minorSteps dx dy err 0 = 0 := by
  unfold minorSteps
  exact Int.ediv_eq_zero_of_lt (by omega) (by omega)

/-- The loop of R173 in closed form: at turn `k` the iteration variable has moved by `k` and the other axis by
`minorSteps`. -/
theorem bresenham_getElem? {steep : Bool} {dx dy ystep : Int} (hdy : 0 ≤ dy) (hdx : dy ≤ dx) {n k : Nat} (hk : k < n)
    (x y : Int) {err : Int} (h0 : 0 ≤ err) (h1 : err < dx) :
    (bresenham steep dx dy ystep n x y err)[k]? =
      some (if steep then (y + ystep * minorSteps dx dy err k, x + k) else (x + k, y + ystep * minorSteps dx dy err k)) := by
  induction n generalizing x y err k with
  | zero => omega
  | succ n ih =>
    cases k with
    | zero => simp [bresenham, minorSteps_zero h0 h1]
    | succ k =>
      have hpos : 0 < dx := by omega
      simp only [bresenham, List.getElem?_cons_succ]
      split
      · rw [ih (by omega) (x + 1) (y + ystep) (by omega) (by omega)]
        have hm : minorSteps dx dy (err - dy + dx) k = minorSteps dx dy err ((k : Int) + 1) - 1 := by
          unfold minorSteps
          rw [show (k : Int) * dy - (err - dy + dx) + dx - 1 = (((k : Int) + 1) * dy - err + dx - 1) + (-1) * dx by ring,
            Int.add_mul_ediv_right _ _ (by omega)]
          ring
        have e1 : y + ystep + ystep * minorSteps dx dy (err - dy + dx) k
            = y + ystep * minorSteps dx dy err ((k : Int) + 1) := by rw [hm]; ring
        have e2 : x + 1 + (k : Int) = x + ((k : Int) + 1) := by ring
        rw [e1, e2]
        push_cast
        rfl
      · rw [ih (by omega) (x + 1) y (by omega) (by omega)]
        have hm : minorSteps dx dy (err - dy) k = minorSteps dx dy err ((k : Int) + 1) := by
          unfold minorSteps
          congr 1
          ring
        have e2 : x + 1 + (k : Int) = x + ((k : Int) + 1) := by ring
        rw [hm, e2]
        push_cast
        rfl

/-! ## The midpoint iteration -/

theorem midpointNext_x (m : Midpoint) : (midpointNext m).x = m.x + 1 := by
  unfold midpointNext midpointRaiseX midpointLowerY
  split <;> rfl

theorem midpointNext_y (m : Midpoint) : (midpointNext m).y = m.y ∨ (midpointNext m).y = m.y - 1 := by
  unfold midpointNext midpointRaiseX midpointLowerY
  split
  · exact .inr rfl
  · exact .inl rfl

theorem length_midpointLoop_le (k : Nat) (m : Midpoint) : (midpointLoop k m).length ≤ k := by
  induction k generalizing m with
  | zero => simp [midpointLoop]
  | succ k ih =>
    simp only [midpointLoop]
    split
    · simpa using ih (midpointNext m)
    · simp

/-- The loop has ended by its own test once it may take as many turns as `y` exceeds `x`: more turns add nothing
(log entry 18). -/
theorem midpointLoop_fuel {k : Nat} {m : Midpoint} (h : m.y - m.x ≤ k) : midpointLoop (k + 1) m = midpointLoop k m := by
  induction k generalizing m with
  | zero =>
    simp only [midpointLoop]
    rw [if_neg (by push_cast at h; omega)]
  | succ k ih =>
    have hy := midpointNext_y m
    have hx := midpointNext_x m
    conv => lhs; unfold midpointLoop
    conv => rhs; unfold midpointLoop
    split
    · rw [ih (by push_cast at h; omega)]
    · rfl

/-- Every emitted pair lies in the square of the radius. -/
theorem midpointLoop_bounds {k : Nat} {m : Midpoint} {r : Int} (hx : 0 ≤ m.x) (hy : m.y ≤ r) {p : Int × Int}
    (hp : p ∈ midpointLoop k m) : 1 ≤ p.1 ∧ p.1 ≤ r ∧ 0 ≤ p.2 ∧ p.2 ≤ r := by
  induction k generalizing m with
  | zero => simp [midpointLoop] at hp
  | succ k ih =>
    have hy' := midpointNext_y m
    have hx' := midpointNext_x m
    simp only [midpointLoop] at hp
    split at hp
    · rcases List.mem_cons.mp hp with rfl | hp
      · simp only; omega
      · exact ih (m := midpointNext m) (by omega) (by omega) hp
    · simp at hp

theorem midpointPairs_bounds {r : Nat} {p : Int × Int} (hp : p ∈ midpointPairs r) :
    1 ≤ p.1 ∧ p.1 ≤ r ∧ 0 ≤ p.2 ∧ p.2 ≤ r :=
  midpointLoop_bounds (m := midpointStart r) (by simp [midpointStart]) (by simp [midpointStart]) hp

/-- The `j`-th emitted pair has its `x` at `j + 1` turns past the start. -/
theorem midpointLoop_getElem?_x {k j : Nat} {m : Midpoint} {p : Int × Int} (h : (midpointLoop k m)[j]? = some p) :
    p.1 = m.x + j + 1 := by
  induction k generalizing m j with
  | zero => simp [midpointLoop] at h
  | succ k ih =>
    simp only [midpointLoop] at h
    split at h
    · cases j with
      | zero =>
        simp only [List.getElem?_cons_zero, Option.some.injEq] at h
        subst h
        simp [midpointNext_x]
      | succ j =>
        rw [List.getElem?_cons_succ] at h
        have := ih h
        rw [midpointNext_x] at this
        push_cast
        omega
    · simp at h

/-- Every span of an emitted pair lies in the square that bounds the circle (R182). -/
theorem spanPoints_bounds {x0 y0 x y r : Int} (hx : 0 ≤ x) (hxr : x ≤ r) (hy : 0 ≤ y) (hyr : y ≤ r) {p : Int × Int}
    (hp : p ∈ spanPoints x0 y0 x y) : x0 - r ≤ p.1 ∧ p.1 ≤ x0 + r ∧ y0 - r ≤ p.2 ∧ p.2 ≤ y0 + r := by
  obtain ⟨a, b⟩ := p
  simp only [spanPoints, List.mem_append, mem_linePoints_vertical, mem_linePoints_horizontal] at hp
  simp only
  omega

/-- A solid circle with `CIRCLE_FILL = bounding` plots the positions of its bounding square (R184). -/
theorem mem_circleSolidPoints_bounding (x0 y0 : Int) (r : Nat) (p : Int × Int) :
    p ∈ circleSolidPoints .bounding x0 y0 r ↔ p ∈ fillRectPoints (x0 - r) (y0 - r) (x0 + r) (y0 + r) := by
  simp only [circleSolidPoints, finalFillPoints, List.mem_append, List.mem_flatMap]
  constructor
  · rintro (⟨q, hq, hp⟩ | hp)
    · have hb := midpointPairs_bounds hq
      have := spanPoints_bounds (by omega) hb.2.1 hb.2.2.1 hb.2.2.2 hp
      rw [mem_fillRectPoints]
      omega
    · exact hp
  · exact .inr

end Sys2Proof.Machine
end

