-- ==== Sys2Proof/Laws/Step.lean ====
section
/-! SUPPORT. What a command can do and what a step can do, said once. -/

namespace Sys2Proof.Machine

@[simp] theorem State.callFont_nil (s : State) : s.callFont [] = s := by simp [State.callFont]

/-- Everything a command can do: write one configuration register, answer one word, draw, clear, or transfer. -/
theorem exec_cases {i : Instr} {s t : State} (h : exec i s = .next t) :
    (∃ sel, i = .setorient sel ∧ t = s.setOrient (orientFor s.params sel)) ∨
    (∃ f, i = .setpen f ∧ t = s.setPen f) ∨
    (∃ f, i = .setinv f ∧ t = s.setInvert f) ∨
    (∃ sel, i = .selfont sel ∧ t = s.setFont (fontFor s.params sel)) ∨
    (∃ f, i = .setfsolid f ∧ t = s.setFsolid f) ∨
    (∃ v, i = .setfspx v ∧ t = s.setFspx v) ∨
    (∃ v, i = .setfspy v ∧ t = s.setFspy v) ∨
    (∃ cs w, (i = .getorient ∨ i = .sizex ∨ i = .sizey ∨ i = .getfont ∨ i = .fontmax ∨ i = .charszx ∨
      ∃ x y, i = .rdpix x y) ∧ t = (s.callFont cs).pushRsp w) ∨
    (∃ cs ds, ((∃ x y c, i = .point x y c) ∨ (∃ a b d e c, i = .line a b d e c) ∨ (∃ a b d e c, i = .dline a b d e c) ∨
      (∃ a b d e c, i = .rect a b d e c) ∨ (∃ a b d e c, i = .drect a b d e c) ∨ (∃ x y r c, i = .circle x y r c) ∨
      ∃ x y fg bg text, i = .gtext x y fg bg text) ∧ t = (s.callFont cs).plotAll ds) ∨
    (∃ c, i = .clear c ∧
      t = s.setCur (Memory.fill s.params.planeBytes (fun k => clearByte c s.invert (k / s.params.bsh)))) ∨
    (i = .xfer ∧ t = (s.pushPix s.readOut).setPrev (Memory.fill s.params.planeBytes s.readCur)) := by
  have key : ∀ {u : State}, (Host.Outcome.next u : Host.Outcome State Fault Refusal) = .next t → t = u := by
    intro u hu
    injection hu with hu
    exact hu.symm
  cases i with
  | setorient sel => exact .inl ⟨sel, rfl, key h⟩
  | setpen f => exact .inr (.inl ⟨f, rfl, key h⟩)
  | setinv f => exact .inr (.inr (.inl ⟨f, rfl, key h⟩))
  | selfont sel => exact .inr (.inr (.inr (.inl ⟨sel, rfl, key h⟩)))
  | setfsolid f => exact .inr (.inr (.inr (.inr (.inl ⟨f, rfl, key h⟩))))
  | setfspx v => exact .inr (.inr (.inr (.inr (.inr (.inl ⟨v, rfl, key h⟩)))))
  | setfspy v => exact .inr (.inr (.inr (.inr (.inr (.inr (.inl ⟨v, rfl, key h⟩))))))
  | getorient | sizex | sizey | getfont | fontmax =>
    have hk := key h
    rw [← State.callFont_nil s] at hk
    exact .inr (.inr (.inr (.inr (.inr (.inr (.inr (.inl ⟨[], _, by simp, hk⟩)))))))
  | charszx => exact .inr (.inr (.inr (.inr (.inr (.inr (.inr (.inl ⟨_, _, by simp, key h⟩)))))))
  | rdpix x y =>
    have hk := key h
    rw [← State.callFont_nil s] at hk
    exact .inr (.inr (.inr (.inr (.inr (.inr (.inr (.inl ⟨[], _, by simp, hk⟩)))))))
  | point x y c =>
    refine .inr (.inr (.inr (.inr (.inr (.inr (.inr (.inr (.inl ⟨[], [⟨sext16 x, sext16 y, c⟩], by simp, ?_⟩))))))))
    rw [State.callFont_nil]
    exact key h
  | line a b d e c | dline a b d e c | rect a b d e c | drect a b d e c | circle a b d c =>
    have hk := key h
    rw [← State.callFont_nil s] at hk
    exact .inr (.inr (.inr (.inr (.inr (.inr (.inr (.inr (.inl ⟨[], _, by simp, hk⟩))))))))
  | gtext x y fg bg text =>
    exact .inr (.inr (.inr (.inr (.inr (.inr (.inr (.inr (.inl ⟨_, _, by simp, key h⟩))))))))
  | clear c => exact .inr (.inr (.inr (.inr (.inr (.inr (.inr (.inr (.inr (.inl ⟨c, rfl, key h⟩)))))))))
  | xfer => exact .inr (.inr (.inr (.inr (.inr (.inr (.inr (.inr (.inr (.inr ⟨rfl, key h⟩)))))))))

/-- A command does not look at what the outside will present: with other events to come it does the same, and leaves
those events. -/
theorem exec_setInput (i : Instr) (s : State) (es : List PortEvent) :
    exec i (s.setInput es) =
      match exec i s with
      | .next t => .next (t.setInput es)
      | .fault r => .fault r
      | .refused r => .refused r := by
  have d : ∀ (u : State) (ds : List Dot), (u.setInput es).plotAll ds = (u.plotAll ds).setInput es := by
    intro u ds
    rw [State.plotAll_elsewhere (s := u) (t := u.setInput es) rfl rfl rfl rfl rfl ds]
    conv_rhs => rw [State.plotAll_eq u]
    rfl
  cases i with
  | point x y c => exact congrArg Host.Outcome.next (d s [_])
  | line | dline | rect | drect | circle => exact congrArg Host.Outcome.next (d s _)
  | gtext x0 y0 fg bg text => exact congrArg Host.Outcome.next (d (s.callFont _) _)
  | _ => rfl

/-- Every command executes: none faults, none is refused (R243, R246). -/
theorem exec_next (i : Instr) (s : State) : ∃ t, exec i s = .next t := by cases i <;> exact ⟨_, rfl⟩

/-- What no command changes: the parameters, STATUS, the assembly buffer, the events to come. -/
theorem exec_frame {i : Instr} {s t : State} (h : exec i s = .next t) :
    t.params = s.params ∧ t.epoch = s.epoch ∧ t.status = s.status ∧ t.asm = s.asm ∧ t.input = s.input := by
  rcases exec_cases h with ⟨_, _, rfl⟩ | ⟨_, _, rfl⟩ | ⟨_, _, rfl⟩ | ⟨_, _, rfl⟩ | ⟨_, _, rfl⟩ | ⟨_, _, rfl⟩ |
    ⟨_, _, rfl⟩ | ⟨_, _, _, rfl⟩ | ⟨_, _, _, rfl⟩ | ⟨_, _, rfl⟩ | ⟨_, rfl⟩
  case inr.inr.inr.inr.inr.inr.inr.inr.inl => rw [State.plotAll_eq]; simp
  all_goals simp

/-- Everything a step that answers a next state can do: reset, ignore a word while faulted, hold a word, enter the
fault, or execute the command that the word completes. -/
theorem step_cases {s t : State} (h : step s = .next t) :
    (∃ rest, s.input = .reset :: rest ∧ t = (s.setInput rest).assertReset) ∨
    (∃ w rest, s.input = .word w :: rest ∧ s.faulted = true ∧ t = s.setInput rest) ∨
    (∃ w rest, s.input = .word w :: rest ∧ s.faulted = false ∧ decode (s.asm ++ [w]) = .incomplete ∧
      t = (s.setInput rest).setAsm (s.asm ++ [w])) ∨
    (∃ w rest cause, s.input = .word w :: rest ∧ s.faulted = false ∧ decode (s.asm ++ [w]) = .malformed cause ∧
      t = (s.setInput rest).enterFault cause) ∨
    (∃ w rest i more, s.input = .word w :: rest ∧ s.faulted = false ∧ decode (s.asm ++ [w]) = .done i more ∧
      exec i ((s.setInput rest).setAsm []) = .next t) := by
  have key : ∀ {u : State}, (Host.Outcome.next u : Host.Outcome State Fault Refusal) = .next t → t = u := by
    intro u hu
    injection hu with hu
    exact hu.symm
  unfold step at h
  split at h
  · unfold State.noInput at h
    split at h <;> cases h
  · rename_i rest hin
    exact .inl ⟨rest, hin, key h⟩
  · rename_i w rest hin
    have hf : (s.setInput rest).faulted = s.faulted := rfl
    unfold State.acceptWord at h
    rw [hf] at h
    by_cases hfault : s.faulted = true
    · rw [if_pos hfault] at h
      exact .inr (.inl ⟨w, rest, hin, hfault, key h⟩)
    · rw [if_neg hfault] at h
      have hnf : s.faulted = false := by simpa using hfault
      simp only [State.setInput_asm] at h
      cases hd : decode (s.asm ++ [w]) with
      | incomplete =>
        rw [hd] at h
        exact .inr (.inr (.inl ⟨w, rest, hin, hnf, hd, key h⟩))
      | malformed cause =>
        rw [hd] at h
        exact .inr (.inr (.inr (.inl ⟨w, rest, cause, hin, hnf, hd, key h⟩)))
      | done i more =>
        rw [hd] at h
        exact .inr (.inr (.inr (.inr ⟨w, rest, i, more, hin, hnf, hd, h⟩)))

end Sys2Proof.Machine
end

