-- ==== Sys2Proof/Laws/Text.lean ====
section
/-! SUPPORT. Which dots the TextRenderer plots. -/

namespace Sys2Proof.Machine

/-- The dot of one glyph bit: the text colour for a set bit, the background colour for a clear bit that is filled. -/
theorem mem_bitDots {bit fill : Bool} {fg bg : Colour} {x y : Int} {d : Dot} :
    d ∈ bitDots bit fill fg bg x y ↔
      d.x = x ∧ d.y = y ∧ ((bit = true ∧ d.c = fg) ∨ (bit = false ∧ fill = true ∧ d.c = bg)) := by
  obtain ⟨a, b, c⟩ := d
  cases bit <;> cases fill <;> simp [bitDots, Dot.mk.injEq]

theorem mem_oneByteColumn {b0 : Byte} {fsolid : Bool} {fg bg : Colour} {x y0 : Int} {d : Dot} :
    d ∈ oneByteColumn b0 fsolid fg bg x y0 ↔ ∃ j < 8, d ∈ bitDots (b0.getLsbD j) fsolid fg bg x (y0 + j) := by
  simp [oneByteColumn]

theorem mem_twoByteColumn {b0 b1 : Byte} {fsolid : Bool} {fg bg : Colour} {x y0 : Int} {d : Dot} :
    d ∈ twoByteColumn b0 b1 fsolid fg bg x y0 ↔
      ∃ j < 8, d ∈ bitDots (b0.getLsbD j) fsolid fg bg x (y0 + j) ∨
        d ∈ bitDots (b1.getLsbD j) (fsolid && decide (j < 4)) fg bg x (y0 + 8 + j) := by
  simp [twoByteColumn]

/-- A character has the glyph index of R204 exactly where its code is one of the font's. -/
theorem glyphIndex?_eq_some {m : Metrics} {ch : Byte} {g : Nat} :
    m.glyphIndex? ch = some g ↔ m.firstCode + g = ch.toNat ∧ g < m.glyphCount := by
  unfold Metrics.glyphIndex?
  split
  · simp; omega
  · simp; omega

theorem mem_charDots {p : Params} {font : Nat} {fsolid : Bool} {fg bg : Colour} {x0 y0 : Int} {k : Nat} {ch : Byte}
    {d : Dot} :
    d ∈ charDots p font fsolid fg bg x0 y0 k ch ↔
      ∃ g i, (p.metrics font).firstCode + g = ch.toNat ∧ g < (p.metrics font).glyphCount ∧
        i < (p.metrics font).maxWidth ∧
        d ∈ columnDots p font fsolid fg bg g i (x0 + ((p.metrics font).maxWidth : Int) * k + i) y0 := by
  unfold charDots
  split
  · rename_i h
    simp only [List.not_mem_nil, false_iff, not_exists, not_and]
    intro g i hg hc
    rw [glyphIndex?_eq_some.mpr ⟨hg, hc⟩] at h
    cases h
  · rename_i g h
    obtain ⟨hg, hc⟩ := glyphIndex?_eq_some.mp h
    simp only [List.mem_flatMap, List.mem_range]
    constructor
    · rintro ⟨i, hi, hd⟩
      exact ⟨g, i, hg, hc, hi, hd⟩
    · rintro ⟨g', i, hg', _, hi, hd⟩
      obtain rfl : g' = g := by omega
      exact ⟨i, hi, hd⟩

theorem mem_textDots {p : Params} {font : Nat} {fsolid : Bool} {fg bg : Colour} {x0 y0 : Int} {n : Nat}
    {text : List Byte} {d : Dot} :
    d ∈ textDots p font fsolid fg bg x0 y0 n text ↔
      ∃ k ch, text[k]? = some ch ∧ d ∈ charDots p font fsolid fg bg x0 y0 (n + k) ch := by
  induction text generalizing n with
  | nil => simp [textDots]
  | cons b text ih =>
    simp only [textDots, List.mem_append, ih]
    constructor
    · rintro (hd | ⟨k, ch, hk, hd⟩)
      · exact ⟨0, b, rfl, hd⟩
      · exact ⟨k + 1, ch, by simpa using hk, by rwa [← Nat.add_assoc, Nat.add_right_comm]⟩
    · rintro ⟨k, ch, hk, hd⟩
      cases k with
      | zero =>
        simp only [List.getElem?_cons_zero, Option.some.injEq] at hk
        subst hk
        exact .inl hd
      | succ k => exact .inr ⟨k, ch, by simpa using hk, by rwa [Nat.add_right_comm, Nat.add_assoc]⟩

/-- The dots of a column of a one-byte font (R202). -/
theorem columnDots_oneByte {p : Params} {font : Nat} (h : (p.metrics font).height ≤ 8) (fsolid : Bool) (fg bg : Colour)
    (g i : Nat) (x y0 : Int) :
    columnDots p font fsolid fg bg g i x y0 = oneByteColumn (p.glyphRow font g i) fsolid fg bg x y0 := by
  have ht : ¬ (p.metrics font).twoByte = true := by simpa [Metrics.twoByte] using h
  simp only [columnDots, if_neg ht]

/-- The dots of a column of a two-byte font (R202). -/
theorem columnDots_twoByte {p : Params} {font : Nat} (h : 8 < (p.metrics font).height) (fsolid : Bool) (fg bg : Colour)
    (g i : Nat) (x y0 : Int) :
    columnDots p font fsolid fg bg g i x y0 =
      twoByteColumn (p.glyphRow font g (2 * i)) (p.glyphRow font g (2 * i + 1)) fsolid fg bg x y0 := by
  have ht : (p.metrics font).twoByte = true := by simpa [Metrics.twoByte] using h
  simp only [columnDots, if_pos ht]

/-- The column and the row of a dot of one column: its column is the one given, and its row lies in the 8 or 16
rows of the column's bytes. -/
theorem columnDots_at {p : Params} {font : Nat} {fsolid : Bool} {fg bg : Colour} {g i : Nat} {x y0 : Int} {d : Dot}
    (h : d ∈ columnDots p font fsolid fg bg g i x y0) : d.x = x ∧ y0 ≤ d.y ∧ d.y < y0 + 16 := by
  unfold columnDots at h
  split at h
  · rw [mem_twoByteColumn] at h
    obtain ⟨j, hj, hd | hd⟩ := h <;> rw [mem_bitDots] at hd <;> omega
  · rw [mem_oneByteColumn] at h
    obtain ⟨j, hj, hd⟩ := h
    rw [mem_bitDots] at hd
    omega

end Sys2Proof.Machine
end

