-- ==== Sys2Proof/Tests/Slice0.lean ====
section
/-! SUPPORT. The model's own tests: ill-formed terms refused, one word sequence from the spec for every command, one
or two effects of every command from the worked vectors of spec/95_test_vectors.md, and for every statement with
hypotheses a state and operands that meet them. -/

namespace Sys2Proof.Tests

open Sys2Proof.Machine Sys2Proof.Claims

/-! ## Small instances and states -/

/-- The font provider FP2 of spec/95_test_vectors.md. -/
def fp2 : List Font :=
  [⟨8, 3, 0x41, [[0x7E, 0x09, 0x7E], [0x7F, 0x49, 0x36]]⟩, ⟨12, 2, 0x30, [[0xFF, 0x0F, 0x81, 0x18]]⟩]

/-- An instance with the provider FP2. -/
def chip (v h : Nat) : Params := ⟨v, h, fp2, .bounding⟩

/-- A state right after reset, but with every byte of `CUR` set to `b`. -/
def plain (p : Params) (b : Byte) : State := (State.afterReset p 0).setCur (Memory.fill p.planeBytes (fun _ => b))

/-- The smallest instance of the spec's examples (`V = 2`, `H = 8`), with `CUR` zero. -/
def tiny : State := plain (chip 2 8) 0

/-- The next state of an outcome. -/
def after (o : Host.Outcome State Fault Refusal) : Option State :=
  match o with
  | .next t => some t
  | _ => none

/-- The bytes of `CUR` after an outcome, in index order. -/
def curAfter (o : Host.Outcome State Fault Refusal) : Option (List Byte) := (after o).map (fun t => t.cur.map (·.2))

/-- The response stream after an outcome. -/
def rspAfter (o : Host.Outcome State Fault Refusal) : Option (List Word) := (after o).map (·.rsp)

/-! ## Ill-formed terms are refused -/

theorem test_wf_text_255 : (Instr.gtext 0 0 .black .white (List.replicate 255 0x41)).wf = true := by
  rw [Instr.wf, List.length_replicate]; decide
theorem test_wf_text_256 : (Instr.gtext 0 0 .black .white (List.replicate 256 0x41)).wf = false := by
  rw [Instr.wf, List.length_replicate]; decide
theorem test_params_wf : (chip 1 32767).wf = true ∧ (chip 32767 1).wf = true := by decide
theorem test_params_v_low : (chip 0 8).wf = false := by decide
theorem test_params_v_high : (chip 32768 8).wf = false := by decide
theorem test_params_h_low : (chip 8 0).wf = false := by decide
theorem test_params_h_high : (chip 8 32768).wf = false := by decide
theorem test_params_no_font : (Params.mk 8 8 [] .bounding).wf = false := by decide
theorem test_params_bad_font : (Params.mk 8 8 [⟨0, 1, 0, []⟩] .bounding).wf = false := by decide
theorem test_font_height_low : (Font.mk 0 3 0 []).wf = false := by decide
theorem test_font_height_high : (Font.mk 17 3 0 []).wf = false := by decide
theorem test_font_width_high : (Font.mk 8 256 0 []).wf = false := by decide
theorem test_font_first_high : (Font.mk 8 3 256 []).wf = false := by decide
theorem test_font_count_high (gs : List (List Byte)) (h : gs.length = 257) : (Font.mk 8 0 0 gs).wf = false := by
  simp [Font.wf, h]
theorem test_font_row_short : (Font.mk 8 3 0 [[1, 2]]).wf = false := by decide
theorem test_font_two_byte_row : (Font.mk 9 2 0 [[1, 2, 3, 4]]).wf = true := by decide

/-! ## Decoding: words written out from the spec's encodings (R90, R94, the vectors of spec/95_test_vectors.md) -/

theorem test_decode_setorient : decode [0x0106] = .done (.setorient 6) [] := by decide
theorem test_decode_setpen : decode [0x0201] = .done (.setpen true) [] := by decide
theorem test_decode_setinv : decode [0x0300] = .done (.setinv false) [] := by decide
theorem test_decode_selfont : decode [0x0402] = .done (.selfont 2) [] := by decide
theorem test_decode_setfsolid : decode [0x0501] = .done (.setfsolid true) [] := by decide
theorem test_decode_setfspx : decode [0x06FF] = .done (.setfspx 255) [] := by decide
theorem test_decode_setfspy : decode [0x0709] = .done (.setfspy 9) [] := by decide
theorem test_decode_getorient : decode [0x1000, 0x1100] = .done .getorient [0x1100] := by decide
theorem test_decode_sizex : decode [0x1100] = .done .sizex [] := by decide
theorem test_decode_sizey : decode [0x1200] = .done .sizey [] := by decide
theorem test_decode_getfont : decode [0x1300] = .done .getfont [] := by decide
theorem test_decode_fontmax : decode [0x1400] = .done .fontmax [] := by decide
theorem test_decode_charszx : decode [0x1500] = .done .charszx [] := by decide
theorem test_decode_rdpix : decode [0x1600, 0x0005, 0xFFFF] = .done (.rdpix 5 (-1)) [] := by decide
theorem test_decode_clear : decode [0x2002] = .done (.clear .grey) [] := by decide
theorem test_decode_point : decode [0x2102, 0x0003, 0xFFFF] = .done (.point 3 (-1) .grey) [] := by decide
theorem test_decode_line :
    decode [0x2200, 0x0000, 0x0003, 0x0003, 0x0001] = .done (.line 0 3 3 1 .black) [] := by decide
theorem test_decode_dline :
    decode [0x2301, 0x0002, 0x0003, 0x0004, 0xFFFE] = .done (.dline 2 3 4 (-2) .white) [] := by decide
theorem test_decode_rect :
    decode [0x2402, 0x0001, 0x0002, 0x0006, 0x0004] = .done (.rect 1 2 6 4 .grey) [] := by decide
theorem test_decode_drect :
    decode [0x2500, 0x0001, 0x0002, 0x0004, 0x0003] = .done (.drect 1 2 4 3 .black) [] := by decide
theorem test_decode_circle :
    decode [0x2601, 0x0005, 0x0006, 0xFFFF] = .done (.circle 5 6 65535 .white) [] := by decide
theorem test_decode_gtext :
    decode [0x2704, 0x0001, 0x0002, 0x0002, 0x0041, 0x0042] =
      .done (.gtext 1 2 .black .white [0x41, 0x42]) [] := by decide
theorem test_decode_gtext_colours :
    decode [0x2702, 0x0000, 0x0000, 0x0000] = .done (.gtext 0 0 .grey .black []) [] := by decide
theorem test_decode_xfer : decode [0x3000] = .done .xfer [] := by decide

/-- V60-1: unassigned opcodes. -/
theorem test_decode_unassigned :
    [0x0000, 0x00FF, 0x0800, 0x0F00, 0x1700, 0x1F00, 0x2800, 0x2F03, 0x3100, 0x8000, 0xFF00].map (fun w => decode [w]) =
      List.replicate 11 (.malformed .fOpcode) := rfl

/-- V60-2: reserved bits and codes. -/
theorem test_decode_reserved :
    [0x0202, 0x0302, 0x0580, 0x1001, 0x1601, 0x3001, 0x2003, 0x2004, 0x2680, 0x2703, 0x270C, 0x2710].map
      (fun w => decode [w]) = List.replicate 12 (.malformed .fReserved) := rfl

/-- V60-3: a length word and a character word with a reserved bit set. -/
theorem test_decode_gtext_reserved :
    decode [0x2704, 0x0000, 0x0000, 0x0100] = .malformed .fReserved ∧
    decode [0x2704, 0x0000, 0x0000, 0x0002, 0x0041, 0x0141] = .malformed .fReserved := by decide

/-- V60-5: an incomplete command. -/
theorem test_decode_incomplete : decode [0x2100, 0x0000] = .incomplete := by decide

/-- The opcode table's numbering: `CIRCLE 5, 5, 3, BLACK`, its four words from the least significant bits up. -/
theorem test_decodeTableWord :
    decodeTableWord 64 (0x2600 + 0x0005 * 2 ^ 16 + 0x0005 * 2 ^ 32 + 0x0003 * 2 ^ 48) = some (.circle 5 5 3 .black) := by
  decide

/-- R94's examples in assembler notation. -/
theorem test_assembly : (Instr.point 3 (-1) .grey).assembly = "POINT 3, -1, GREY" := by decide

/-! ## Set and query commands -/

/-- V40-1 on `V = 12, H = 16`: selector 7 gives 1. -/
theorem test_setorient_7 :
    (after (exec (.setorient 7) (State.afterReset (chip 12 16) 0))).map (·.orient) = some 1 := by decide
/-- V40-1: selector 4 saturates at 3. -/
theorem test_setorient_4 : (after (exec (.setorient 4) tiny)).map (·.orient) = some 3 := by decide
theorem test_setpen : (after (exec (.setpen true) tiny)).map (fun t => (t.pen, t.invert, t.fsolid)) = some (true, false, false) := by
  decide
theorem test_setinv : (after (exec (.setinv true) tiny)).map (fun t => (t.pen, t.invert, t.fsolid)) = some (false, true, false) := by
  decide
theorem test_setfsolid :
    (after (exec (.setfsolid true) tiny)).map (fun t => (t.pen, t.invert, t.fsolid)) = some (false, false, true) := by decide
/-- V40-2: selector 255 is clamped to font 1. -/
theorem test_selfont : (after (exec (.selfont 255) tiny)).map (·.font) = some 1 := by decide
theorem test_setfspx : (after (exec (.setfspx 255) tiny)).map (fun t => (t.fspx, t.fspy)) = some (255, 0) := by decide
theorem test_setfspy : (after (exec (.setfspy 9) tiny)).map (fun t => (t.fspx, t.fspy)) = some (0, 9) := by decide
theorem test_getorient : rspAfter (exec .getorient (tiny.setOrient 2)) = some [2] := by decide
/-- V40-1 on G16: orientation 1 answers 16, 12. -/
theorem test_sizex : rspAfter (exec .sizex ((State.afterReset (chip 16 12) 0).setOrient 1)) = some [16] := by decide
theorem test_sizey : rspAfter (exec .sizey ((State.afterReset (chip 16 12) 0).setOrient 1)) = some [12] := by decide
theorem test_getfont : rspAfter (exec .getfont (tiny.setFont 1)) = some [1] := by decide
/-- V40-2: `FONTMAX` answers the count. -/
theorem test_fontmax : rspAfter (exec .fontmax tiny) = some [2] := by decide
/-- V40-3: the sum of font 1's width and 255 is not reduced to 8 bits. -/
theorem test_charszx : rspAfter (exec .charszx ((tiny.setFont 1).setFspx 255)) = some [0x0101] := by decide

/-! ## Pixels -/

/-- S6: `POINT 0, 0, BLACK` on `V = 2, H = 8` under orientations 0 and 1. -/
theorem test_point : curAfter (exec (.point 0 0 .black) tiny) = some [0x80, 0x00] := by decide
theorem test_point_orient_1 : curAfter (exec (.point 0 0 .black) (tiny.setOrient 1)) = some [0x01, 0x00] := by decide
/-- R147's example: 0 for BLACK, 1 for WHITE, 0xFFFF out of bounds. -/
theorem test_rdpix :
    rspAfter (exec (.rdpix 0 0) (tiny.writeCur 0 0x80)) = some [0x0000] ∧
    rspAfter (exec (.rdpix 1 0) (tiny.writeCur 0 0x80)) = some [0x0001] := by decide
theorem test_rdpix_out : rspAfter (exec (.rdpix 8 0) tiny) = some [0xFFFF] := by decide
/-- V41-6: `CLEAR GREY`, plain and inverted. -/
theorem test_clear_grey :
    curAfter (exec (.clear .grey) (plain (chip 4 12) 0x12)) =
      some [0xAA, 0xAA, 0x55, 0x55, 0xAA, 0xAA, 0x55, 0x55] := by decide
theorem test_clear_inverted :
    curAfter (exec (.clear .white) ((plain (chip 2 8) 0x12).setInvert true)) = some [0xFF, 0xFF] := by decide

/-! ## Lines, rectangles, circles -/

/-- V42-1, its first three runs: `LINE 0, 0, 5, 2, BLACK` on an 8 by 3 picture. -/
theorem test_line : curAfter (exec (.line 0 0 5 2 .black) (plain (chip 3 8) 0)) = some [0xC0, 0x30, 0x0C] := by decide
/-- V42-3: the 45-degree line upwards. -/
theorem test_line_up : curAfter (exec (.line 0 3 3 0 .black) (plain (chip 4 8) 0)) = some [0x10, 0x20, 0x40, 0x80] := by
  decide
/-- V42-10: `DLINE 2, 2, 0, 0, BLACK` is two pixels; `DLINE 2, 2, 4, 1, BLACK` is four. -/
theorem test_dline_zero : curAfter (exec (.dline 2 2 0 0 .black) (plain (chip 3 8) 0)) = some [0x00, 0x40, 0x20] := by decide
theorem test_dline : curAfter (exec (.dline 2 2 4 1 .black) (plain (chip 3 8) 0)) = some [0x00, 0x00, 0x3C] := by decide
/-- V42-7 and V42-8: outline and solid. -/
theorem test_rect_outline :
    curAfter (exec (.rect 1 1 4 3 .black) (plain (chip 4 8) 0)) = some [0x00, 0x78, 0x48, 0x78] := by decide
theorem test_rect_solid :
    curAfter (exec (.rect 4 3 1 1 .black) ((plain (chip 4 8) 0).setPen true)) = some [0x00, 0x78, 0x78, 0x78] := by decide
theorem test_drect_outline :
    curAfter (exec (.drect 1 1 4 3 .black) (plain (chip 4 8) 0)) = some [0x00, 0x78, 0x48, 0x78] := by decide
/-- V42-10: `DRECT 3, 3, 0, 0, BLACK`, solid. -/
theorem test_drect_solid :
    curAfter (exec (.drect 3 3 0 0 .black) ((plain (chip 4 8) 0).setPen true)) = some [0x00, 0x00, 0x30, 0x30] := by decide
/-- V42-12: `CIRCLE 2, 2, 1, BLACK` outline and solid. -/
theorem test_circle_outline :
    curAfter (exec (.circle 2 2 1 .black) (plain (chip 4 8) 0)) = some [0x00, 0x20, 0x50, 0x20] := by decide
theorem test_circle_solid :
    curAfter (exec (.circle 2 2 1 .black) ((plain (chip 4 8) 0).setPen true)) = some [0x00, 0x70, 0x70, 0x70] := by decide

/-! ## Text and transfer -/

/-- V43-1's glyph `'A'`, drawn at (1, 0). -/
theorem test_gtext :
    curAfter (exec (.gtext 1 0 .black .white [0x41]) (plain (chip 8 8) 0)) =
      some [0x20, 0x50, 0x50, 0x70, 0x50, 0x50, 0x50, 0x00] := by decide
/-- R210: the requests for a text of one glyph and one character outside the font. -/
theorem test_gtext_calls :
    (after (exec (.gtext 0 0 .black .white [0x43, 0x42]) tiny)).map (·.fontPort) =
      some [.metrics 0, .glyphRow 0 1 0, .glyphRow 0 1 1, .glyphRow 0 1 2] := by decide
/-- P4's second `XFER`: `PREV = 00 00`, `CUR = 80 00`. -/
theorem test_xfer_records :
    (after (exec .xfer ((tiny.writeCur 0 0x80).setPrev [(0, 0x00), (1, 0x00)]))).map (·.pix) =
      some [⟨0, 0x00⟩, ⟨0, 0x00⟩, ⟨1, 0x80⟩, ⟨1, 0x00⟩] := by decide
theorem test_xfer_commit : (after (exec .xfer (tiny.writeCur 0 0x80))).map (·.prev) = some [(0, 0x80), (1, 0x00)] := by decide

/-! ## The port -/

/-- P6's unassigned header `0x00AA` in an idle block. -/
theorem test_step_fault : (after (step (tiny.setInput [.word 0x00AA]))).map (·.status) = some 0b011 := by decide
/-- The first step from reset with `SIZEX` laid on the port answers one word. -/
theorem test_withFetchWord : (rspAfter (step (tiny.withFetchWord 16 0x1100))) = some [8] := by decide

/-! ## Witnesses: a state and operands that meet the hypotheses of each statement -/

/-- A state right after reset of the smallest instance, with these events to come. -/
def waiting (es : List PortEvent) : State := (State.afterReset (chip 2 8) 0).setInput es

/-- The same, faulted with `F_OPCODE`. -/
def stuck (es : List PortEvent) : State := (waiting es).enterFault .fOpcode

/-- The far corner of the smallest instance, which is logical `(7, 1)` under orientation 0. -/
def corner : BufferPixel := ⟨1, 7⟩

theorem tiny_inv : (State.afterReset (chip 2 8) 0).Inv :=
  ⟨by decide, List.Pairwise.nil, (by intro c hc; cases hc), List.Pairwise.nil, (by intro c hc; cases hc), by decide,
    by decide, rfl, fun _ => rfl⟩

theorem witness_DecodeOfEncodeIsTheCommand :
    (Instr.gtext 0x8000 0x7FFF .grey .white (List.replicate 255 0xFF)).wf = true ∧ (Instr.gtext 0 0 .black .black []).wf = true :=
  ⟨by rw [Instr.wf, List.length_replicate]; decide, rfl⟩

theorem witness_DecodedWordsAreTheEncoding : decode [0x270A, 0, 0, 0, 0xFFFF] = .done (.gtext 0 0 .grey .grey []) [0xFFFF] := by
  decide

/-- Each of the three hypotheses on a header: a row selected and decoded, and none selected. -/
theorem witness_HeaderSelectsItsRow :
    (∃ r ∈ opcodeRows, r.selects 0x2102 = true ∧ decode [0x2102, 0, 0] = .done (.point 0 0 .grey) []) ∧
    ∀ r ∈ opcodeRows, r.selects 0x2103 = false :=
  ⟨⟨opcodeRows[15], by decide, by decide, by decide⟩, by decide⟩

/-- One state for every bound of the unassigned ranges. -/
theorem witness_UnassignedOpcodeFaults :
    (waiting []).faulted = false ∧ (waiting []).asm = [] ∧
    ([0x00FF, 0x0800, 0x0F00, 0x1700, 0x1F00, 0x2800, 0x2F00, 0x3100, 0xFFFF] : List Word).all (fun w =>
      decide ((waiting [.word w]).input = .word w :: [] ∧
        (w.high.toNat = 0x00 ∨ (0x08 ≤ w.high.toNat ∧ w.high.toNat ≤ 0x0F) ∨
          (0x17 ≤ w.high.toNat ∧ w.high.toNat ≤ 0x1F) ∨ (0x28 ≤ w.high.toNat ∧ w.high.toNat ≤ 0x2F) ∨
          0x31 ≤ w.high.toNat))) = true :=
  ⟨rfl, rfl, rfl⟩

theorem witness_ReservedFieldFaults_header :
    (waiting [.word 0x2003]).faulted = false ∧ (waiting [.word 0x2003]).asm = [] ∧
      (waiting [.word 0x2003]).input = [.word 0x2003] ∧ (∃ r ∈ opcodeRows, (0x2003 : Word).high = r.matchBits.high) ∧
      ∀ r ∈ opcodeRows, r.selects 0x2003 = false :=
  ⟨rfl, rfl, rfl, ⟨opcodeRows[14], by decide, by decide⟩, by decide⟩

/-- `GTEXT` waiting for its length word. -/
def awaitingLength : State := (waiting [.word 0x0100]).setAsm [headerWord 0x27 0x0A, 0, 0]

theorem witness_ReservedFieldFaults_length :
    awaitingLength.faulted = false ∧ legalColours 0x0A ∧ awaitingLength.asm = [headerWord 0x27 0x0A, 0, 0] ∧
      awaitingLength.input = [.word 0x0100] ∧ (0x0100 : Word).high ≠ 0 :=
  ⟨rfl, by unfold legalColours; decide, rfl, rfl, by decide⟩

/-- `GTEXT` waiting for its second and last character word. -/
def awaitingCharacter : State := (waiting [.word 0x0141]).setAsm [headerWord 0x27 0x04, 0, 0, 2, 0x41]

theorem witness_ReservedFieldFaults_character :
    awaitingCharacter.faulted = false ∧ legalColours 0x04 ∧ (2 : Word).high = 0 ∧ (∀ v ∈ ([0x41] : List Word), v.high = 0) ∧
      ([0x41] : List Word).length < (2 : Word).toNat ∧
      awaitingCharacter.asm = headerWord 0x27 0x04 :: 0 :: 0 :: 2 :: [0x41] ∧ awaitingCharacter.input = [.word 0x0141] ∧
      (0x0141 : Word).high ≠ 0 :=
  ⟨rfl, by unfold legalColours; decide, by decide, by simp only [List.mem_singleton, forall_eq]; decide, by decide, rfl,
    rfl, by decide⟩

theorem witness_ReservedFieldFaults_operands :
    ∃ r ∈ opcodeRows, r.format = .q ∧ r.selects 0x2402 = true ∧ ([0xFFFF, 0, 0x8000, 1] : List Word).length + 1 = r.format.words 0 :=
  ⟨opcodeRows[18], by decide, rfl, by decide, rfl⟩

theorem witness_LaterWordsDoNotChangeTheReading :
    decode [0x0000] = .malformed .fOpcode ∧ decode [0x3000] = .done .xfer [] ∧ decode ([0x2100] ++ [0x0000]) = .incomplete := by
  decide

theorem witness_StepRunsTheDecodedCommand :
    ((waiting [.word 5]).setAsm [0x2600, 5, 6]).input = [.word 5] ∧
      ((waiting [.word 5]).setAsm [0x2600, 5, 6]).faulted = false ∧
      decode (((waiting [.word 5]).setAsm [0x2600, 5, 6]).asm ++ [5]) = .done (.circle 5 6 5 .black) [] := by decide

theorem witness_CommandExecutesOnItsLastWord :
    (Instr.rdpix 1 2).wf = true ∧ (waiting [.word 0x1600, .word 1, .word 2, .reset]).faulted = false ∧
      (waiting [.word 0x1600, .word 1, .word 2, .reset]).asm = [] ∧
      (waiting [.word 0x1600, .word 1, .word 2, .reset]).input = (encode (.rdpix 1 2)).map .word ++ [.reset] := by decide

/-- The three hypotheses on a word: it leaves the command incomplete, it completes it, it fails its check. -/
theorem witness_AssemblyBufferHoldsThePartialCommand :
    decode ((waiting [.word 0x2100]).asm ++ [0x2100]) = .incomplete ∧ (waiting [.word 0x2100]).faulted = false ∧
    (∃ t, step (waiting [.word 0x1000]) = .next t) ∧ decode ((waiting [.word 0x1000]).asm ++ [0x1000]) ≠ .incomplete ∧
    (∃ t, step (waiting [.word 0x0000]) = .next t) ∧ decode ((waiting [.word 0x0000]).asm ++ [0x0000]) ≠ .incomplete ∧
    ∃ t, step (waiting [.reset]) = .next t :=
  ⟨by decide, rfl, ⟨_, rfl⟩, by decide, ⟨_, rfl⟩, by decide, ⟨_, rfl⟩⟩

theorem witness_MalformedWordEntersTheFault :
    decode (((waiting [.word 0x0100]).setAsm [0x2704, 0, 0]).asm ++ [0x0100]) = .malformed .fReserved ∧
      decode ((waiting [.word 0x3100]).asm ++ [0x3100]) = .malformed .fOpcode ∧
      ∃ t, step (waiting [.word 0x3100]) = .next t :=
  ⟨by decide, by decide, _, rfl⟩

theorem witness_FaultedBlockIsFrozenUntilReset :
    (stuck []).faulted = true ∧ (stuck [.word 0x2001, .reset]).input = [0x2001].map .word ++ [.reset] ∧
      (stuck []).input = [] ∧ (stuck [.reset]).input = .reset :: [] ∧
      ∃ t, step (stuck [.reset]) = .next t ∧ t.faulted = false :=
  ⟨rfl, rfl, rfl, rfl, _, rfl, rfl⟩

theorem witness_IdleBlockWaitsForAWord : (waiting []).faulted = false ∧ (waiting []).input = [] := ⟨rfl, rfl⟩

theorem witness_ResetAssertionGivesTheResetState :
    ((stuck [.reset, .word 0x2001]).setAsm []).input = .reset :: [.word 0x2001] := rfl

theorem witness_PowerOnAdmitsLegalInstancesOnly : (chip 1 32767).wf = true ∧ (chip 32768 1).wf = false := by decide

theorem witness_WellFormedSequenceNeverFaults :
    (∀ i ∈ ([.clear .white, .point 0 0 .black] : List Instr), i.wf = true) ∧
      (waiting ([0x2001, 0x2100, 0, 0].map .word)).faulted = false ∧ (waiting ([0x2001, 0x2100, 0, 0].map .word)).asm = [] ∧
      (waiting ([0x2001, 0x2100, 0, 0].map .word)).input =
        (([.clear .white, .point 0 0 .black] : List Instr).flatMap encode).map .word ++ [] := by decide

/-- V60-3's second sequence after a `CLEAR`. -/
theorem witness_FaultIsPreciseAtCommands :
    decode [0x2704, 0, 0, 2, 0x41, 0x141] = .malformed .fReserved ∧
      (∀ k, k < 6 → decode (([0x2704, 0, 0, 2, 0x41, 0x141] : List Word).take k) = .incomplete) ∧
      (∀ i ∈ ([.clear .white] : List Instr), i.wf = true) ∧
      (waiting ([0x2001, 0x2704, 0, 0, 2, 0x41, 0x141, 0x3000].map .word)).faulted = false ∧
      (waiting ([0x2001, 0x2704, 0, 0, 2, 0x41, 0x141, 0x3000].map .word)).asm = [] ∧
      (waiting ([0x2001, 0x2704, 0, 0, 2, 0x41, 0x141, 0x3000].map .word)).input =
        (([.clear .white] : List Instr).flatMap encode ++ [0x2704, 0, 0, 2, 0x41, 0x141] ++ [0x3000]).map .word ++ [] :=
  ⟨by decide, by decide, by simp [Instr.wf], rfl, rfl, rfl⟩

theorem witness_EveryStepKeepsTheInvariant :
    ((State.afterReset (chip 2 8) 0).setInput [.word 0x2002]).Inv ∧
      ∃ t, step ((State.afterReset (chip 2 8) 0).setInput [.word 0x2002]) = .next t :=
  ⟨⟨tiny_inv.1, tiny_inv.2, tiny_inv.3, tiny_inv.4, tiny_inv.5, tiny_inv.6, tiny_inv.7, tiny_inv.8, tiny_inv.9⟩, _, rfl⟩

theorem witness_ParametersNeverChange : ∃ t, step (waiting [.word 0x0106]) = .next t := ⟨_, rfl⟩

theorem witness_OnlyXferWritesPrev :
    (∃ t, exec (.clear .grey) tiny = .next t) ∧ Instr.clear .grey ≠ .xfer ∧
      ∃ t, step (tiny.setInput [.word 0x3000]) = .next t ∧ t.prev ≠ (tiny.setInput [.word 0x3000]).prev :=
  ⟨⟨_, rfl⟩, by decide, _, rfl, by decide⟩

theorem witness_OnlyQueriesAnswer : ∃ t, exec (.rdpix 0 0) tiny = .next t := ⟨_, rfl⟩

theorem witness_OnlyXferSendsRecords : (∃ t, exec .xfer tiny = .next t) ∧ (∃ t, exec (.clear .grey) tiny = .next t) :=
  ⟨⟨_, rfl⟩, _, rfl⟩

/-- A command that reads the pen and one that does not. -/
theorem witness_PenIsReadByRectanglesAndCirclesOnly :
    (∃ t, exec (.circle 0 0 1 .black) tiny = .next t) ∧ (∀ f, Instr.circle 0 0 1 .black ≠ .setpen f) ∧
      (∃ t, exec (.line 0 0 1 1 .black) tiny = .next t) ∧ (∀ f, Instr.line 0 0 1 1 .black ≠ .setpen f) ∧
      (∀ a b d e c, Instr.line 0 0 1 1 .black ≠ .rect a b d e c) ∧
      (∀ a b d e c, Instr.line 0 0 1 1 .black ≠ .drect a b d e c) ∧ ∀ a b d c, Instr.line 0 0 1 1 .black ≠ .circle a b d c :=
  ⟨⟨_, rfl⟩, nofun, ⟨_, rfl⟩, nofun, nofun, nofun, nofun⟩

/-- A command that reads the invert flag and one that does not. -/
theorem witness_InvertIsReadByPixelWritesAndClearOnly :
    (∃ t, exec (.clear .black) tiny = .next t) ∧ (∀ f, Instr.clear .black ≠ .setinv f) ∧
      (∃ t, exec (.rdpix 7 1) tiny = .next t) ∧ (∀ f, Instr.rdpix 7 1 ≠ .setinv f) ∧ isQuery (.rdpix 7 1) = true :=
  ⟨⟨_, rfl⟩, nofun, ⟨_, rfl⟩, nofun, rfl⟩

theorem witness_SpacingIsReadByCharszxOnly :
    (∃ t, exec (.gtext 0 0 .black .white [0x41]) tiny = .next t) ∧ Instr.gtext 0 0 .black .white [0x41] ≠ .charszx ∧
      (∀ v, Instr.gtext 0 0 .black .white [0x41] ≠ .setfspx v) ∧ (∃ t, exec .charszx tiny = .next t) ∧
      ∀ v, Instr.charszx ≠ .setfspy v :=
  ⟨⟨_, rfl⟩, nofun, nofun, ⟨_, rfl⟩, nofun⟩

/-- A selector for each clause, at the bounds. -/
theorem witness_SetorientSelectsOrClamps :
    (0 : Byte).toNat ≤ 3 ∧ (3 : Byte).toNat ≤ 3 ∧ (6 : Byte).toNat = 6 ∧ (7 : Byte).toNat = 7 ∧ (4 : Byte).toNat = 4 ∧
      (5 : Byte).toNat = 5 ∧ 8 ≤ (8 : Byte).toNat ∧ 8 ≤ (255 : Byte).toNat := by decide

/-- A short operand that is not legal, for each kind. -/
theorem witness_reserved_operands :
    ¬ legalFlag 0x02 ∧ ¬ legalFlag 0x80 ∧ ¬ legalColour 0x03 ∧ ¬ legalColour 0x04 ∧ ¬ legalColours 0x03 ∧
      ¬ legalColours 0x0C ∧ ¬ legalColours 0x10 ∧ ¬ legalNone 0x01 ∧ ¬ legalNone 0x80 := by
  unfold legalFlag legalColour legalColours legalNone; decide

theorem witness_ExtentQueriesAnswer : (State.afterReset (chip 32767 1) 0).params.wf = true := by decide

theorem witness_FontQueriesAnswer :
    tiny.params.wf = true ∧ (tiny.setFont 1).font.toNat < tiny.params.fontCount ∧ tiny.params.fontCount < 65536 := by decide

theorem witness_MapIsABijection :
    mapPixel (chip 2 8) 0 7 1 = some corner ∧ corner.run < (chip 2 8).v ∧ corner.pos < (chip 2 8).h := by decide

theorem witness_PixelAddressesAreDistinctAndInside :
    corner.run < (chip 2 8).v ∧ corner.pos < (chip 2 8).h ∧ addr (chip 2 8) corner = addr (chip 2 8) ⟨1, 7⟩ := by decide

/-- In bounds at the far corner, out of bounds one further. -/
theorem witness_PointPlotsItsPixel :
    mapPixel tiny.params tiny.orient (7 : Word).toInt (1 : Word).toInt = some corner ∧
      mapPixel tiny.params tiny.orient (8 : Word).toInt (1 : Word).toInt = none ∧
      mapPixel tiny.params tiny.orient (0xFFFF : Word).toInt (0 : Word).toInt = none := by decide

theorem witness_RdpixReportsThePhysicalBit :
    mapPixel tiny.params tiny.orient (7 : Word).toInt (1 : Word).toInt = some corner ∧
      mapPixel tiny.params tiny.orient (0 : Word).toInt (2 : Word).toInt = none := by decide

theorem witness_WriteThenReadLaw :
    mapPixel tiny.params tiny.orient (7 : Word).toInt (1 : Word).toInt = some corner ∧
      ∃ t, exec (.point 7 1 .grey) tiny = .next t :=
  ⟨by decide, _, rfl⟩

theorem witness_ClearFillsEveryByte :
    (State.afterReset (chip 2 8) 0).Inv ∧ 1 < (State.afterReset (chip 2 8) 0).params.v ∧
      0 < (State.afterReset (chip 2 8) 0).params.bsh ∧ (State.afterReset (chip 2 8) 0).params.planeBytes ≤ 2 :=
  ⟨tiny_inv, by decide, by decide, by decide⟩

theorem witness_ClearLaw :
    (∃ t, exec (.clear .grey) tiny = .next t) ∧ corner.run < tiny.params.v ∧ corner.pos < tiny.params.h :=
  ⟨⟨_, rfl⟩, by decide, by decide⟩

theorem witness_ClearThenReadLaw :
    (∃ t, exec (.clear .grey) tiny = .next t) ∧
      mapPixel tiny.params tiny.orient (7 : Word).toInt (1 : Word).toInt = some corner :=
  ⟨⟨_, rfl⟩, by decide⟩

/-- A pad bit of an instance with `H = 12`: bit 0 of byte 1 belongs to no pixel. -/
theorem witness_PadBitsAreWrittenByClearOnly :
    (∃ t, exec (.point 0 0 .black) (plain (chip 1 12) 0) = .next t) ∧ (∀ c, Instr.point 0 0 .black ≠ .clear c) ∧
      (∀ q : BufferPixel, q.run < (chip 1 12).v → q.pos < (chip 1 12).h → BitAddress.mk 1 0 ≠ addr (chip 1 12) q) ∧
      (∃ t, exec .xfer tiny = .next t) ∧ ∀ c, Instr.xfer ≠ .clear c := by
  refine ⟨⟨_, rfl⟩, nofun, ?_, ⟨_, rfl⟩, nofun⟩
  intro q hr hp h
  simp only [addr, BitAddress.mk.injEq, chip, Params.bsh] at h hr hp
  omega

theorem witness_PlotOrderDoesNotShow :
    ∀ p, p ∈ ([(0, 0), (1, 0), (0, 0)] : List (Int × Int)) ↔ p ∈ ([(1, 0), (0, 0)] : List (Int × Int)) := by
  simp

theorem witness_AxisParallelLinePositions : (2 : Int) ≠ 1 ∧ (9 : Int) ≠ 4 := by decide

/-- A line that is not steep, at 45 degrees, and a steep one. -/
theorem witness_GeneralLineClosedForm :
    (0 : Int) ≠ 3 ∧ (3 : Int) ≠ 0 ∧ |(0 : Int) - 3| ≤ |(3 : Int) - 0| ∧ ((3 : Nat) : Int) ≤ |(3 : Int) - 0| ∧
      |(2 : Int) - 0| < |(5 : Int) - 0| ∧ ((5 : Nat) : Int) ≤ |(5 : Int) - 0| := by decide

theorem witness_MidpointIteration :
    (midpointPairs 5)[0]? = some (1, 5) ∧ (midpointPairs 5)[1]? = some (2, 5) := by decide

theorem witness_OutlineCirclePlotsItsPoints :
    tiny.pen = false ∧ ((0 : Int) + 0, (0 : Int) + 2) ∈ circleOutlinePoints 0 0 2 := by decide

theorem witness_SolidCircleFillsItsSquare :
    (tiny.setPen true).pen = true ∧ (tiny.setPen true).params.circleFill = .bounding ∧
      (State.afterReset { chip 2 8 with circleFill := .terminal } 0).params.circleFill = .terminal := ⟨rfl, rfl, rfl⟩

theorem witness_GtextDrawsItsGlyphs :
    TextPixel (chip 2 8) 0 false 0 0 .black .white [0x41] 0 1 .black ∧ mapPixel (chip 2 8) 0 0 1 = some ⟨1, 0⟩ ∧
      ([0x41] : List Byte).length ≤ 255 :=
  ⟨⟨0, 0, 1, 0, 0x41, rfl, by decide, by decide, by decide, by decide, by decide, by decide, .inl ⟨by decide, rfl⟩⟩,
    by decide, by decide⟩

theorem witness_FontPortStaysInItsDomain :
    (State.afterReset (chip 2 8) 0).Inv ∧
      (∃ t, exec (.gtext 0 0 .black .white [0x42]) (State.afterReset (chip 2 8) 0) = .next t) ∧
      (∃ t, exec .charszx (State.afterReset (chip 2 8) 0) = .next t) ∧
      ∀ x0 y0 fg bg text, Instr.charszx ≠ .gtext x0 y0 fg bg text :=
  ⟨tiny_inv, ⟨_, rfl⟩, ⟨_, rfl⟩, nofun⟩

theorem witness_XferReadsOutThenCommits : (State.afterReset (chip 2 8) 0).Inv := tiny_inv

end Sys2Proof.Tests
end

section
/-! The parameter check read as ranges, power-on, and the invariant at every reset state of a legal instance. -/

namespace Sys2Proof

/-- R201's ranges, and R202's number of row bytes for every glyph. -/
theorem Font.wf_iff (f : Font) :
    f.wf = true ↔ (1 ≤ f.height ∧ f.height ≤ 16) ∧ f.maxWidth ≤ 255 ∧ f.firstCode ≤ 255 ∧ f.glyphs.length ≤ 256 ∧
      ∀ g ∈ f.glyphs, g.length = f.bytesPerGlyph := by
  simp only [Font.wf, Bool.and_eq_true, decide_eq_true_eq, List.all_eq_true, beq_iff_eq, and_assoc]

/-- R263: the ranges of R3, at least one font (R4), and every font in form. -/
theorem Params.wf_iff (p : Params) :
    p.wf = true ↔ (1 ≤ p.v ∧ p.v ≤ 32767) ∧ (1 ≤ p.h ∧ p.h ≤ 32767) ∧ 1 ≤ p.fontCount ∧
      ∀ f ∈ p.fonts, f.wf = true := by
  have nonempty : (!p.fonts.isEmpty) = true ↔ 1 ≤ p.fontCount := by
    rw [Bool.not_eq_true', List.isEmpty_eq_false_iff]
    exact List.length_pos_iff.symm
  simp only [Params.wf, Bool.and_eq_true, decide_eq_true_eq, List.all_eq_true, nonempty, and_assoc]

end Sys2Proof

namespace Sys2Proof.Machine

/-- Every reset, not the first alone, gives a state of the invariant, when the instance is legal. -/
theorem State.afterReset_inv {p : Params} (h : p.wf = true) (e : Nat) : (State.afterReset p e).Inv where
  paramsWf := h
  curWf := .nil
  curInside := nofun
  prevWf := .nil
  prevInside := nofun
  fontLegal := Params.wf_fontCount h
  statusLegal := by rw [State.afterReset_status]; decide
  asmPrefix := rfl
  asmFaulted := fun _ => rfl

theorem State.powerOn_of_wf {p : Params} (h : p.wf = true) : State.powerOn p = .ok (State.afterReset p 0) :=
  if_pos h

theorem State.powerOn_of_not_wf {p : Params} (h : p.wf = false) : State.powerOn p = .error .illFormedParameters :=
  if_neg (by simp [h])

/-- Settles O16: the check is its ranges font by font, a legal instance powers on in its reset state, which meets the
invariant, and any other is refused. -/
theorem powerOnAdmitsLegalInstancesOnly : Obligations.PowerOnAdmitsLegalInstancesOnly := by
  intro p
  refine ⟨?ranges, ?admitted, State.powerOn_of_not_wf⟩
  case ranges =>
    simp only [Params.wf_iff, Font.wf_iff, Font.bytesPerGlyph]
  case admitted =>
    intro h
    exact ⟨State.afterReset p 0, State.powerOn_of_wf h, rfl, State.afterReset_inv h 0⟩

end Sys2Proof.Machine
end

section
/-! The equation of a step for each kind of event, and what of the state no command changes or reads. -/

namespace Sys2Proof.Machine

/-! ## A step, event by event -/

theorem step_of_no_input {s : State} (hin : s.input = []) (hf : s.faulted = false) : step s = .refused .awaitingWord := by
  simp [step, hin, State.noInput, hf]

theorem step_of_reset {s : State} {rest : List PortEvent} (hin : s.input = .reset :: rest) :
    step s = .next (s.setInput rest).assertReset := by
  simp only [step, hin]

section
variable {s : State} {w : Word} {rest : List PortEvent} (hin : s.input = .word w :: rest) (hf : s.faulted = false)
include hin hf

/-- A word that leaves the command incomplete joins the buffer (R33). -/
theorem step_of_incomplete (hd : decode (s.asm ++ [w]) = .incomplete) :
    step s = .next ((s.setInput rest).setAsm (s.asm ++ [w])) := by
  have hf' : (s.setInput rest).faulted = false := hf
  simp [step, hin, State.acceptWord, hf', hd]

/-- A word that fails its check enters the fault (R83, R241). -/
theorem step_of_malformed {cause : FaultCause} (hd : decode (s.asm ++ [w]) = .malformed cause) :
    step s = .next ((s.setInput rest).enterFault cause) := by
  have hf' : (s.setInput rest).faulted = false := hf
  simp [step, hin, State.acceptWord, hf', hd]

/-- The last word of a command executes it (R82). -/
theorem step_of_done {i : Instr} {more : List Word} (hd : decode (s.asm ++ [w]) = .done i more) :
    step s = exec i ((s.setInput rest).setAsm []) := by
  have hf' : (s.setInput rest).faulted = false := hf
  simp [step, hin, State.acceptWord, hf', hd]

end

/-! ## Fields that drawing leaves -/

@[simp] theorem State.plotAll_pen (s : State) (ds : List Dot) : (s.plotAll ds).pen = s.pen := by
  rw [State.plotAll_eq, State.setCur_pen]

@[simp] theorem State.plotAll_invert (s : State) (ds : List Dot) : (s.plotAll ds).invert = s.invert := by
  rw [State.plotAll_eq, State.setCur_invert]

@[simp] theorem State.plotAll_font (s : State) (ds : List Dot) : (s.plotAll ds).font = s.font := by
  rw [State.plotAll_eq, State.setCur_font]

@[simp] theorem State.plotAll_prev (s : State) (ds : List Dot) : (s.plotAll ds).prev = s.prev := by
  rw [State.plotAll_eq, State.setCur_prev]

/-- The font port's record does not show in what is plotted. -/
theorem State.plotAll_callFont_cur (s : State) (cs : List FontCall) (ds : List Dot) :
    ((s.callFont cs).plotAll ds).cur = (s.plotAll ds).cur :=
  State.plotAll_cur_congr (s := s) (t := s.callFont cs) rfl rfl rfl rfl rfl ds

/-! ## The drawing commands -/

/-- The commands that plot dots one by one. -/
def draws : Instr → Bool
  | .point .. | .line .. | .dline .. | .rect .. | .drect .. | .circle .. | .gtext .. => true
  | _ => false

/-- The drawing commands whose positions depend on `CR.PEN` (R178, R179, R185). -/
def readsPen : Instr → Bool
  | .rect .. | .drect .. | .circle .. => true
  | _ => false

/-- A drawing command asks the font port and plots dots, and does nothing else. -/
theorem exec_of_draws {i : Instr} {s t : State} (hd : draws i = true) (h : exec i s = .next t) :
    ∃ cs ds, t = (s.callFont cs).plotAll ds := by
  cases i with
  | gtext => cases h; exact ⟨_, _, rfl⟩
  | point x y c => cases h; exact ⟨[], [_], by rw [State.callFont_nil]; rfl⟩
  | line | dline | rect | drect | circle => cases h; exact ⟨[], _, by rw [State.callFont_nil]⟩
  | _ => cases hd

/-- A change of the state that touches nothing a drawing command reads or writes, but for `CR.PEN`. -/
structure OutsideDrawing (f : State → State) : Prop where
  params   : ∀ s, (f s).params = s.params
  epoch    : ∀ s, (f s).epoch = s.epoch
  cur      : ∀ s, (f s).cur = s.cur
  orient   : ∀ s, (f s).orient = s.orient
  invert   : ∀ s, (f s).invert = s.invert
  font     : ∀ s, (f s).font = s.font
  fsolid   : ∀ s, (f s).fsolid = s.fsolid
  setCur   : ∀ s m, (f s).setCur m = f (s.setCur m)
  callFont : ∀ s cs, (f s).callFont cs = f (s.callFont cs)

/-- Plotting after such a change is the change after plotting. -/
theorem OutsideDrawing.plotAll {f : State → State} (hf : OutsideDrawing f) (s : State) (ds : List Dot) :
    (f s).plotAll ds = f (s.plotAll ds) := by
  rw [State.plotAll_elsewhere (hf.params s) (hf.epoch s) (hf.cur s) (hf.orient s) (hf.invert s), hf.setCur,
    ← State.plotAll_eq]

/-- A drawing command commutes with such a change, if it reads no pen or the change keeps the pen. -/
theorem OutsideDrawing.exec {f : State → State} (hf : OutsideDrawing f) {i : Instr} {s t : State} (hd : draws i = true)
    (hpen : readsPen i = true → (f s).pen = s.pen) (h : exec i s = .next t) : exec i (f s) = .next (f t) := by
  cases i with
  | point x y c => cases h; exact congrArg _ (hf.plotAll s [_])
  | line | dline => cases h; exact congrArg _ (hf.plotAll s _)
  | rect => cases h; simp only [Machine.exec, execRect, hpen rfl, hf.plotAll]
  | drect => cases h; simp only [Machine.exec, execDrect, hpen rfl, hf.plotAll]
  | circle => cases h; simp only [Machine.exec, execCircle, hpen rfl, hf.params, hf.plotAll]
  | gtext => cases h; simp only [Machine.exec, execGtext, hf.params, hf.font, hf.fsolid, hf.callFont, hf.plotAll]
  | _ => cases hd

theorem outsideDrawing_pen (b : Bool) : OutsideDrawing (fun s => { s with pen := b }) := by
  constructor <;> intros <;> rfl

theorem outsideDrawing_fspx (v : Byte) : OutsideDrawing (fun s => { s with fspx := v }) := by
  constructor <;> intros <;> rfl

theorem outsideDrawing_fspy (v : Byte) : OutsideDrawing (fun s => { s with fspy := v }) := by
  constructor <;> intros <;> rfl

theorem outsideDrawing_rsp (r : List Word) : OutsideDrawing (fun s => { s with rsp := r }) := by
  constructor <;> intros <;> rfl

theorem outsideDrawing_pix (r : List PixRecord) : OutsideDrawing (fun s => { s with pix := r }) := by
  constructor <;> intros <;> rfl

/-! ## Field by field, what a command can leave, and what it does not read -/

section
variable {i : Instr} {s t : State} (h : exec i s = .next t)
include h

/-- `CUR` after a command: as it was, plotted into, or filled. -/
theorem exec_cur_cases :
    t.cur = s.cur ∨ (∃ ds, t.cur = (s.plotAll ds).cur) ∨ ∃ f, t.cur = Memory.fill s.params.planeBytes f := by
  cases i with
  | clear c => cases h; exact .inr (.inr ⟨_, rfl⟩)
  | point | line | dline | rect | drect | circle | gtext =>
    obtain ⟨cs, ds, rfl⟩ := exec_of_draws rfl h
    exact .inr (.inl ⟨ds, State.plotAll_callFont_cur s cs ds⟩)
  | _ => cases h; exact .inl rfl

/-- `PREV` after a command: as it was, or filled by `XFER`. -/
theorem exec_prev_cases : t.prev = s.prev ∨ i = .xfer ∧ t.prev = Memory.fill s.params.planeBytes s.readCur := by
  cases i with
  | xfer => cases h; exact .inr ⟨rfl, rfl⟩
  | point | line | dline | rect | drect | circle | gtext =>
    obtain ⟨cs, ds, rfl⟩ := exec_of_draws rfl h
    exact .inl (State.plotAll_prev _ ds)
  | _ => cases h; exact .inl rfl

/-- `CR.FONT` after a command: as it was, or selected by `SELFONT`. -/
theorem exec_font_cases : t.font = s.font ∨ ∃ sel, i = .selfont sel ∧ t.font = fontFor s.params sel := by
  cases i with
  | selfont sel => cases h; exact .inr ⟨sel, rfl, rfl⟩
  | point | line | dline | rect | drect | circle | gtext =>
    obtain ⟨cs, ds, rfl⟩ := exec_of_draws rfl h
    exact .inl (State.plotAll_font _ ds)
  | _ => cases h; exact .inl rfl

/-- Only `SETPEN` writes `CR.PEN` (R26). -/
theorem exec_pen (hset : ∀ f, i ≠ .setpen f) : t.pen = s.pen := by
  cases i with
  | setpen f => exact absurd rfl (hset f)
  | point | line | dline | rect | drect | circle | gtext =>
    obtain ⟨cs, ds, rfl⟩ := exec_of_draws rfl h
    exact State.plotAll_pen _ ds
  | _ => cases h; rfl

/-- Only `SETINV` writes `CR.INVERT` (R27). -/
theorem exec_invert (hset : ∀ f, i ≠ .setinv f) : t.invert = s.invert := by
  cases i with
  | setinv f => exact absurd rfl (hset f)
  | point | line | dline | rect | drect | circle | gtext =>
    obtain ⟨cs, ds, rfl⟩ := exec_of_draws rfl h
    exact State.plotAll_invert _ ds
  | _ => cases h; rfl

/-- A command that reads no pen commutes with a change of `CR.PEN`. The four lemmas like it below say the same of the
spacing registers and of the two output streams. -/
theorem exec_with_pen (hset : ∀ f, i ≠ .setpen f) (hread : readsPen i = false) (b : Bool) :
    exec i { s with pen := b } = .next { t with pen := b } := by
  cases i with
  | setpen f => exact absurd rfl (hset f)
  | rect | drect | circle => cases hread
  | point | line | dline | gtext => exact (outsideDrawing_pen b).exec rfl nofun h
  | _ => cases h; rfl

theorem exec_with_fspx (hchar : i ≠ .charszx) (hset : ∀ v, i ≠ .setfspx v) (v : Byte) :
    exec i { s with fspx := v } = .next { t with fspx := v } := by
  cases i with
  | charszx => exact absurd rfl hchar
  | setfspx v => exact absurd rfl (hset v)
  | point | line | dline | rect | drect | circle | gtext => exact (outsideDrawing_fspx v).exec rfl (fun _ => rfl) h
  | _ => cases h; rfl

theorem exec_with_fspy (hset : ∀ v, i ≠ .setfspy v) (v : Byte) :
    exec i { s with fspy := v } = .next { t with fspy := v } := by
  cases i with
  | setfspy v => exact absurd rfl (hset v)
  | point | line | dline | rect | drect | circle | gtext => exact (outsideDrawing_fspy v).exec rfl (fun _ => rfl) h
  | _ => cases h; rfl

theorem exec_with_rsp (hq : Claims.isQuery i = false) (r : List Word) :
    exec i { s with rsp := r } = .next { t with rsp := r } := by
  cases i with
  | getorient | sizex | sizey | getfont | fontmax | charszx | rdpix => cases hq
  | point | line | dline | rect | drect | circle | gtext => exact (outsideDrawing_rsp r).exec rfl (fun _ => rfl) h
  | _ => cases h; rfl

/-- A query appends one word, and the same word whatever the stream holds (R34). -/
theorem exec_query (hq : Claims.isQuery i = true) :
    ∃ w, t.rsp = s.rsp ++ [w] ∧ ∀ r, exec i { s with rsp := r } = .next { t with rsp := r ++ [w] } := by
  cases i with
  | getorient | sizex | sizey | getfont | fontmax | charszx | rdpix => cases h; exact ⟨_, rfl, fun _ => rfl⟩
  | _ => cases hq

theorem exec_with_pix (hx : i ≠ .xfer) (r : List PixRecord) :
    exec i { s with pix := r } = .next { t with pix := r } := by
  cases i with
  | xfer => exact absurd rfl hx
  | point | line | dline | rect | drect | circle | gtext => exact (outsideDrawing_pix r).exec rfl (fun _ => rfl) h
  | _ => cases h; rfl

/-- A command that does not see the answers already sent has sent none itself: put the stream in place of itself. -/
theorem exec_rsp (hq : Claims.isQuery i = false) : t.rsp = s.rsp :=
  have hself : t = { t with rsp := s.rsp } := Host.Outcome.next.inj (h.symm.trans (exec_with_rsp h hq s.rsp))
  (congrArg State.rsp hself :)

/-- The same for the records of the read-out port. -/
theorem exec_pix (hx : i ≠ .xfer) : t.pix = s.pix :=
  have hself : t = { t with pix := s.pix } := Host.Outcome.next.inj (h.symm.trans (exec_with_pix h hx s.pix))
  (congrArg State.pix hself :)

end

/-- The records of a read-out: bytes of `PREV` with `sel = 0`, bytes of `CUR` with `sel = 1` (R220). -/
theorem mem_readOut {s : State} {r : PixRecord} :
    r ∈ s.readOut ↔ (r.sel = 0 ∧ ∃ k, k < s.params.planeBytes ∧ r.byte = s.readPrev k) ∨
      (r.sel = 1 ∧ ∃ k, k < s.params.planeBytes ∧ r.byte = s.readCur k) := by
  obtain ⟨sel, byte⟩ := r
  simp only [State.readOut, List.mem_append, List.mem_map, List.mem_range, PixRecord.mk.injEq]
  grind

end Sys2Proof.Machine
end

section
/-! Every step keeps the invariant: what each update of the state needs to keep it, then commands, then steps. -/

namespace Sys2Proof.Machine

theorem State.Inv.setInput {s : State} (h : s.Inv) (es : List PortEvent) : (s.setInput es).Inv := { h with }

/-- A buffer in place of another keeps the invariant when it reads as incomplete, and is empty while faulted. -/
theorem State.Inv.setAsm {s : State} (h : s.Inv) {ws : List Word} (hd : decode ws = .incomplete)
    (hf : s.faulted = true → ws = []) : (s.setAsm ws).Inv :=
  { h with asmPrefix := hd, asmFaulted := hf }

theorem State.Inv.enterFault {s : State} (h : s.Inv) (cause : FaultCause) : (s.enterFault cause).Inv :=
  { h with
    statusLegal := by rw [State.enterFault_eq]; cases cause <;> rfl
    asmPrefix := rfl
    asmFaulted := fun _ => rfl }

theorem State.Inv.assertReset {s : State} (h : s.Inv) : s.assertReset.Inv :=
  (State.afterReset_inv h.paramsWf _).setInput _

/-- A command leaves `CUR` in canonical form inside its `N` bytes (R53). -/
theorem exec_cur_form {i : Instr} {s t : State} (hs : s.Inv) (h : exec i s = .next t) :
    Memory.wf t.cur ∧ Memory.inside s.params.planeBytes t.cur := by
  rcases exec_cur_cases h with hc | ⟨ds, hc⟩ | ⟨f, hc⟩ <;> rw [hc]
  · exact ⟨hs.curWf, hs.curInside⟩
  · exact State.plotAll_cur_form hs.curWf hs.curInside ds
  · exact ⟨Memory.fill_wf _ _, Memory.fill_inside _ _⟩

/-- A command leaves `PREV` in canonical form inside its `N` bytes (R53). -/
theorem exec_prev_form {i : Instr} {s t : State} (hs : s.Inv) (h : exec i s = .next t) :
    Memory.wf t.prev ∧ Memory.inside s.params.planeBytes t.prev := by
  rcases exec_prev_cases h with hp | ⟨-, hp⟩ <;> rw [hp]
  · exact ⟨hs.prevWf, hs.prevInside⟩
  · exact ⟨Memory.fill_wf _ _, Memory.fill_inside _ _⟩

/-- A command leaves `CR.FONT` below `FONT_COUNT` (R28). -/
theorem exec_font_legal {i : Instr} {s t : State} (hs : s.Inv) (h : exec i s = .next t) :
    t.font.toNat < s.params.fontCount := by
  rcases exec_font_cases h with hfont | ⟨sel, -, hfont⟩ <;> rw [hfont]
  · exact hs.fontLegal
  · exact fontFor_lt hs.paramsWf sel

/-- Every command keeps the invariant. -/
theorem exec_keeps_inv {i : Instr} {s t : State} (hs : s.Inv) (h : exec i s = .next t) : t.Inv := by
  obtain ⟨hparams, -, hstatus, hasm, -⟩ := exec_frame h
  obtain ⟨hcurWf, hcurInside⟩ := exec_cur_form hs h
  obtain ⟨hprevWf, hprevInside⟩ := exec_prev_form hs h
  have hfont := exec_font_legal hs h
  rw [← hparams] at hcurInside hprevInside hfont
  have hfaulted : t.faulted = s.faulted := by unfold State.faulted; rw [hstatus]
  exact {
    paramsWf := hparams ▸ hs.paramsWf
    curWf := hcurWf
    curInside := hcurInside
    prevWf := hprevWf
    prevInside := hprevInside
    fontLegal := hfont
    statusLegal := hstatus ▸ hs.statusLegal
    asmPrefix := hasm ▸ hs.asmPrefix
    asmFaulted := by rw [hfaulted, hasm]; exact hs.asmFaulted }

/-- Settles O19, over the five things a step can do. -/
theorem everyStepKeepsTheInvariant : Obligations.EveryStepKeepsTheInvariant := by
  intro s t hs h
  rcases step_cases h with ⟨rest, -, rfl⟩ | ⟨w, rest, -, -, rfl⟩ | ⟨w, rest, -, hf, hd, rfl⟩ |
    ⟨w, rest, cause, -, -, -, rfl⟩ | ⟨w, rest, i, more, -, -, -, hexec⟩
  · exact (hs.setInput rest).assertReset
  · exact hs.setInput rest
  · exact (hs.setInput rest).setAsm hd fun hfault => absurd (hf.symm.trans hfault) Bool.false_ne_true
  · exact (hs.setInput rest).enterFault cause
  · exact exec_keeps_inv ((hs.setInput rest).setAsm rfl fun _ => rfl) hexec

/-- Settles O20: the installed parameters are legal, and `CIRCLE_FILL` is no part of that. -/
theorem resetMeetsTheInvariant : Obligations.ResetMeetsTheInvariant :=
  State.afterReset_inv (p := { Config.installed.params with circleFill := .bounding }) Config.installed.ok 0

end Sys2Proof.Machine
end

section
/-! The other statements about the state: the steps one by one, then what each field is written and read by. -/

namespace Sys2Proof.Machine

/-- Settles O9: the equation of a step whose word completes a command. -/
theorem stepRunsTheDecodedCommand : Obligations.StepRunsTheDecodedCommand :=
  fun _ _ _ _ _ hin hf hd => step_of_done hin hf hd

/-- Settles O14. -/
theorem idleBlockWaitsForAWord : Obligations.IdleBlockWaitsForAWord :=
  fun _ hf hin => step_of_no_input hin hf

/-- A word that completes or refuses a command leaves the buffer empty (R33). -/
theorem step_asm_of_not_incomplete {s t : State} {w : Word} {rest : List PortEvent} (hin : s.input = .word w :: rest)
    (hf : s.faulted = false) (hd : decode (s.asm ++ [w]) ≠ .incomplete) (h : step s = .next t) : t.asm = [] := by
  cases hread : decode (s.asm ++ [w]) with
  | incomplete => exact absurd hread hd
  | malformed cause =>
    rw [step_of_malformed hin hf hread] at h
    cases h
    rfl
  | done i more =>
    rw [step_of_done hin hf hread] at h
    obtain ⟨-, -, -, hasm, -⟩ := exec_frame h
    exact hasm

/-- Settles O11, clause by clause: a word that is held, a word that ends its command, reset, and the reset state. -/
theorem assemblyBufferHoldsThePartialCommand : Obligations.AssemblyBufferHoldsThePartialCommand := by
  refine ⟨?held, ?ended, ?reset, rfl⟩
  case held => exact fun _ _ _ hin hf hd => step_of_incomplete hin hf hd
  case ended => exact fun _ _ _ _ hin hf hd h => step_asm_of_not_incomplete hin hf hd h
  case reset =>
    intro s t rest hin h
    rw [step_of_reset hin] at h
    cases h
    rfl

/-- Settles O21: no port event touches the parameters, and no command does. -/
theorem parametersNeverChange : Obligations.ParametersNeverChange := by
  intro s t h
  rcases step_cases h with ⟨_, -, rfl⟩ | ⟨_, _, -, -, rfl⟩ | ⟨_, _, -, -, -, rfl⟩ | ⟨_, _, _, -, -, -, rfl⟩ |
    ⟨_, _, _, _, -, -, -, hexec⟩
  case inr.inr.inr.inr =>
    obtain ⟨hparams, -⟩ := exec_frame hexec
    exact hparams
  all_goals rfl

/-- Settles O23: a query appends its word, and any other command commutes with a change of the stream. -/
theorem onlyQueriesAnswer : Obligations.OnlyQueriesAnswer := by
  refine ⟨fun i s t h => ?_, rfl⟩
  cases hq : Claims.isQuery i with
  | true =>
    obtain ⟨w, hrsp, hstream⟩ := exec_query h hq
    exact ⟨[w], rfl, hrsp, hstream⟩
  | false =>
    refine ⟨[], rfl, ?_, fun r => ?_⟩
    · rw [exec_rsp h hq, List.append_nil]
    · rw [List.append_nil]
      exact exec_with_rsp h hq r

/-- Settles O24: `XFER` appends its read-out, and any other command commutes with a change of the stream. -/
theorem onlyXferSendsRecords : Obligations.OnlyXferSendsRecords := by
  refine ⟨fun i s t h => ?_, rfl⟩
  by_cases hx : i = .xfer
  · subst hx
    cases h
    exact ⟨s.readOut, fun hne => absurd rfl hne, rfl, fun r hr => mem_readOut.mp hr, fun _ => rfl⟩
  · refine ⟨[], fun _ => rfl, ?_, nofun, fun r => ?_⟩
    · rw [exec_pix h hx, List.append_nil]
    · rw [List.append_nil]
      exact exec_with_pix h hx r

/-- Settles O25: the drawing commands that read the pen are the three named. -/
theorem penIsReadByRectanglesAndCirclesOnly : Obligations.PenIsReadByRectanglesAndCirclesOnly := by
  refine fun i s t h hset => ⟨exec_pen h hset, fun hrect hdrect hcircle => exec_with_pen h hset ?_⟩
  cases i with
  | rect => exact absurd rfl (hrect _ _ _ _ _)
  | drect => exact absurd rfl (hdrect _ _ _ _ _)
  | circle => exact absurd rfl (hcircle _ _ _ _)
  | _ => rfl

/-- Settles O26: of the commands that do not write `CUR`, none but `SETINV` touches the flag. -/
theorem invertIsReadByPixelWritesAndClearOnly : Obligations.InvertIsReadByPixelWritesAndClearOnly := by
  refine fun i s t h hset => ⟨exec_invert h hset, fun hi b => ?_⟩
  cases i with
  | setinv f => exact absurd rfl (hset f)
  | clear | point | line | dline | rect | drect | circle | gtext => simp [Claims.isQuery] at hi
  | _ => cases h; rfl

/-- Settles O27. -/
theorem spacingIsReadByCharszxOnly : Obligations.SpacingIsReadByCharszxOnly :=
  fun _ _ _ h => ⟨exec_with_fspx h, exec_with_fspy h⟩

end Sys2Proof.Machine
end

section
/-! The memory statements: the geometry of a run and the addresses of its pixels, and which commands leave which bits of
`CUR`. -/

namespace Sys2Proof

/-- A run takes no more bytes than its bits need (R2). -/
theorem Params.bsh_lt (p : Params) : 8 * p.bsh < p.h + 8 := by unfold Params.bsh; omega

end Sys2Proof

namespace Sys2Proof.Machine

/-- Settles O35: the pair is the definition of `Addr`, and R53 and R54 give the rest. -/
theorem pixelAddressesAreDistinctAndInside : Obligations.PixelAddressesAreDistinctAndInside := by
  refine fun p => ⟨⟨p.bsh_lt, p.h_le_bsh⟩, rfl, fun q hrun hpos => ⟨rfl, rfl, ?idx, ?bit⟩, ?injective⟩
  case idx => exact addr_idx_lt ⟨hrun, hpos⟩
  case bit => exact Nat.le_of_lt_succ (addr_bit_lt p q)
  case injective => exact fun _ _ _ hpos _ hpos' heq => addr_injective hpos hpos' heq

/-- A query, a transfer or a command of format Z plots nothing. -/
theorem draws_eq_false {i : Instr} (hi : Claims.isQuery i = true ∨ i = .xfer ∨ i.format = .z) : draws i = false := by
  cases i with
  | point | line | dline | rect | drect | circle | gtext => simp [Claims.isQuery, Instr.format] at hi
  | _ => rfl

section
variable {i : Instr} {s t : State} (h : exec i s = .next t)
include h

/-- A command that neither draws nor clears leaves `CUR`. -/
theorem exec_cur_of_not_draws (hclear : ∀ c, i ≠ .clear c) (hd : draws i = false) : t.cur = s.cur := by
  cases i with
  | clear c => exact absurd rfl (hclear c)
  | point | line | dline | rect | drect | circle | gtext => cases hd
  | _ => cases h; rfl

/-- A drawing command leaves the bits that belong to no pixel (R55). -/
theorem exec_curBit_of_draws (hd : draws i = true) {a : BitAddress}
    (hpad : ∀ q : BufferPixel, q.inside s.params → a ≠ addr s.params q) : t.curBit a = s.curBit a := by
  obtain ⟨cs, ds, rfl⟩ := exec_of_draws hd h
  calc ((s.callFont cs).plotAll ds).curBit a
      = (s.callFont cs).curBit a := State.plotAll_curBit_of_no_pixel hpad
    _ = s.curBit a := State.curBit_congr rfl rfl a

end

/-- Settles O42: a command other than `CLEAR` draws, and plots pixels alone, or leaves the whole plane. -/
theorem padBitsAreWrittenByClearOnly : Obligations.PadBitsAreWrittenByClearOnly := by
  refine fun i s t h hclear => ⟨fun a hpad => ?pad, fun hi => exec_cur_of_not_draws h hclear (draws_eq_false hi)⟩
  case pad =>
    cases hd : draws i with
    | true => exact exec_curBit_of_draws h hd fun q hq => hpad q hq.1 hq.2
    | false =>
      obtain ⟨-, hepoch, -⟩ := exec_frame h
      exact State.curBit_congr (exec_cur_of_not_draws h hclear hd) hepoch a

end Sys2Proof.Machine
end

section
/-! Encoding and decoding are inverse: a command is its header word and its operand words (R82), each read back on its
own, and a word stream is read command by command (R93). -/

namespace Sys2Proof

/-! ## A command as a header word and operand words -/

/-- The header that a command begins with. -/
def Instr.header : Instr → Header
  | .rdpix _ _ => .rdpix
  | .point _ _ c => .point c
  | .line _ _ _ _ c => .line c
  | .dline _ _ _ _ c => .dline c
  | .rect _ _ _ _ c => .rect c
  | .drect _ _ _ _ c => .drect c
  | .circle _ _ _ c => .circle c
  | .gtext _ _ fg bg _ => .gtext fg bg
  | i => .whole i

/-- The word that a header is encoded as (R90). -/
def Header.word : Header → Word
  | .whole i => (encode i).headD 0
  | .rdpix => headerWord 0x16 0
  | .point c => headerWord 0x21 (colourField c)
  | .line c => headerWord 0x22 (colourField c)
  | .dline c => headerWord 0x23 (colourField c)
  | .rect c => headerWord 0x24 (colourField c)
  | .drect c => headerWord 0x25 (colourField c)
  | .circle c => headerWord 0x26 (colourField c)
  | .gtext fg bg => headerWord 0x27 (coloursField fg bg)

/-- The command that a header completes with every operand word zero. -/
def Header.withZeros : Header → Instr
  | .whole i => i
  | .rdpix => .rdpix 0 0
  | .point c => .point 0 0 c
  | .line c => .line 0 0 0 0 c
  | .dline c => .dline 0 0 0 0 c
  | .rect c => .rect 0 0 0 0 c
  | .drect c => .drect 0 0 0 0 c
  | .circle c => .circle 0 0 0 c
  | .gtext fg bg => .gtext 0 0 fg bg []

/-- The words of a command after its header word. -/
def Instr.operandWords (i : Instr) : List Word := (encode i).tail

theorem encode_eq (i : Instr) : encode i = i.header.word :: i.operandWords := by cases i <;> rfl

/-- The header word of every command passes its check. -/
theorem decodeHeader_word (i : Instr) : decodeHeader i.header.word = .ok i.header := by
  cases i <;> simp [Instr.header, Header.word, encode, decodeHeader, checked, noOperand]

/-- A header that passes its check is the header word of a well-formed command (R90). -/
theorem withZeros_of_decodeHeader {w : Word} {hd : Header} (h : decodeHeader w = .ok hd) :
    hd.withZeros.wf = true ∧ hd.withZeros.header = hd ∧ w = hd.word := by
  have hw := headerWord_high_low w
  rcases decodeHeader_cases h with ⟨a, i, hop, ha, rfl⟩ | ⟨f, i, hop, ha, rfl⟩ | ⟨hd', hop, ha, rfl⟩ |
    ⟨c, hd', hop, ha, rfl⟩ | ⟨fg, bg, hop, ha, rfl⟩
  case inr.inr.inr.inr => exact ⟨rfl, rfl, by rw [← hw, hop, ha]; rfl⟩
  all_goals
    rw [ha] at hw
    simp only [List.mem_cons, Prod.mk.injEq, List.not_mem_nil, or_false] at hop
    casesm* _ ∨ _, _ ∧ _
  all_goals
    rename_i hop heq
    subst heq
    exact ⟨rfl, rfl, by rw [← hw, hop]; rfl⟩

/-- The length word of a text of at most 255 characters holds its length. -/
theorem decodeGtext_encoded (fg bg : Colour) (x0 y0 : Word) {text : List Byte} (hlen : text.length ≤ 255)
    (rest : List Word) :
    decodeGtext fg bg (x0 :: y0 :: byteWord (BitVec.ofNat 8 text.length) :: (text.map byteWord ++ rest)) =
      .done (.gtext x0 y0 fg bg text) rest := by
  have hn : (BitVec.ofNat 8 text.length).toNat = text.length := by
    rw [BitVec.toNat_ofNat]; omega
  simp [decodeGtext, hn, takeChars_map_byteWord]

/-- The operand words of a command complete its header to the command. -/
theorem decodeOperands_operandWords {i : Instr} (h : i.wf = true) (rest : List Word) :
    decodeOperands i.header (i.operandWords ++ rest) = .done i rest := by
  cases i with
  | gtext x0 y0 fg bg text => exact decodeGtext_encoded fg bg x0 y0 (of_decide_eq_true h) rest
  | _ => rfl

/-- Operand words that complete a `GTEXT` are those of a text of the length they state. -/
theorem decodeGtext_done {fg bg : Colour} {ws rest : List Word} {i : Instr} (h : decodeGtext fg bg ws = .done i rest) :
    ∃ x0 y0 text, i = .gtext x0 y0 fg bg text ∧ i.wf = true ∧ ws = i.operandWords ++ rest := by
  match ws with
  | [] | [_] | [_, _] => cases h
  | x0 :: y0 :: n :: ws =>
    simp only [decodeGtext] at h
    split at h
    case isFalse => cases h
    case isTrue hn =>
      split at h
      case h_2 | h_3 => cases h
      case h_1 text rest' hchars =>
        obtain ⟨hlen, rfl⟩ := takeChars_got hchars
        cases h
        have hle : text.length ≤ 255 := by have := n.low.isLt; omega
        have hword : byteWord (BitVec.ofNat 8 text.length) = n := by
          rw [hlen, BitVec.ofNat_toNat, BitVec.setWidth_eq, byteWord_low hn]
        refine ⟨x0, y0, text, rfl, decide_eq_true hle, ?_⟩
        simp [Instr.operandWords, encode, hword]

/-- Operand words that complete the header of a command are those of a command with that header. -/
theorem decodeOperands_done {i j : Instr} {ws rest : List Word} (h : decodeOperands i.header ws = .done j rest) :
    (i.wf = true → j.wf = true) ∧ j.header = i.header ∧ ws = j.operandWords ++ rest := by
  cases i with
  | gtext x0 y0 fg bg text =>
    obtain ⟨_, _, _, rfl, hwf, hws⟩ := decodeGtext_done h
    exact ⟨fun _ => hwf, rfl, hws⟩
  | rdpix | point =>
    match ws with
    | [] | [_] => cases h
    | _ :: _ :: _ => cases h; exact ⟨id, rfl, rfl⟩
  | circle =>
    match ws with
    | [] | [_] | [_, _] => cases h
    | _ :: _ :: _ :: _ => cases h; exact ⟨id, rfl, rfl⟩
  | line | dline | rect | drect =>
    match ws with
    | [] | [_] | [_, _] | [_, _, _] => cases h
    | _ :: _ :: _ :: _ :: _ => cases h; exact ⟨id, rfl, rfl⟩
  | _ => cases h; exact ⟨id, rfl, rfl⟩

/-! ## Decoding inverts encoding -/

theorem decode_encode {i : Instr} (h : i.wf = true) (rest : List Word) : decode (encode i ++ rest) = .done i rest := by
  simp only [encode_eq, List.cons_append, decode, decodeHeader_word, decodeOperands_operandWords h]

theorem decode_encode_self {i : Instr} (h : i.wf = true) : decode (encode i) = .done i [] := by
  simpa only [List.append_nil] using decode_encode h []

theorem encode_of_decode {ws rest : List Word} {i : Instr} (h : decode ws = .done i rest) :
    i.wf = true ∧ ws = encode i ++ rest := by
  match ws with
  | [] => cases h
  | w :: ws =>
    simp only [decode] at h
    cases hw : decodeHeader w with
    | error cause => rw [hw] at h; cases h
    | ok hd =>
      rw [hw] at h
      obtain ⟨hzeros, hheader, rfl⟩ := withZeros_of_decodeHeader hw
      rw [← hheader] at h
      obtain ⟨hwf, hsame, rfl⟩ := decodeOperands_done h
      exact ⟨hwf hzeros, by rw [encode_eq, hsame, hheader, List.cons_append]⟩

/-- A word sequence reads as a command exactly when the command's encoding begins it. -/
theorem decode_eq_done_iff {ws rest : List Word} {i : Instr} :
    decode ws = .done i rest ↔ i.wf = true ∧ ws = encode i ++ rest :=
  ⟨encode_of_decode, fun ⟨hwf, hws⟩ => hws ▸ decode_encode hwf rest⟩

/-- Settles O1: the header word is read back, then the operand words. -/
theorem decodeOfEncodeIsTheCommand : Obligations.DecodeOfEncodeIsTheCommand :=
  fun _ rest h => decode_encode h rest

/-- Settles O2: a header that passes its check and operand words that are complete are those of a command. -/
theorem decodedWordsAreTheEncoding : Obligations.DecodedWordsAreTheEncoding :=
  fun _ _ _ h => encode_of_decode h

/-! ## Word streams -/

/-- The words of a complete command that are before some of them are incomplete. -/
theorem decode_proper_prefix {ws more : List Word} {i : Instr} (h : decode (ws ++ more) = .done i [])
    (hmore : more ≠ []) : decode ws = .incomplete := by
  cases hd : decode ws with
  | incomplete => rfl
  | malformed cause => simp [decode_append_of_malformed hd more] at h
  | done j rest => simp [decode_append_of_done hd more, hmore] at h

/-- A tail of a word stream that no complete command begins. -/
def Unread (ws : List Word) : Prop := decode ws = .incomplete ∨ ∃ cause, decode ws = .malformed cause

theorem unread_iff {ws : List Word} : Unread ws ↔ ∀ i rest, decode ws ≠ .done i rest := by
  unfold Unread
  cases decode ws <;> simp

/-- Commands and a tail that a word stream splits into (R93). -/
def IsSplit (ws : List Word) (p : List Instr × List Word) : Prop :=
  (∀ i ∈ p.1, i.wf = true) ∧ p.1.flatMap encode ++ p.2 = ws ∧ Unread p.2

theorem isSplit_nil {ws tail : List Word} : IsSplit ws ([], tail) ↔ tail = ws ∧ Unread tail := by
  simp [IsSplit]

/-- A split begins with the command that the stream reads as, and splits the rest. -/
theorem isSplit_cons {ws tail : List Word} {i : Instr} {is : List Instr} :
    IsSplit ws (i :: is, tail) ↔ ∃ rest, decode ws = .done i rest ∧ IsSplit rest (is, tail) := by
  simp only [IsSplit, decode_eq_done_iff, List.forall_mem_cons, List.flatMap_cons, List.append_assoc]
  constructor
  · rintro ⟨⟨hi, his⟩, rfl, htail⟩
    exact ⟨_, ⟨hi, rfl⟩, his, rfl, htail⟩
  · rintro ⟨rest, ⟨hi, rfl⟩, his, rfl, htail⟩
    exact ⟨⟨hi, his⟩, rfl, htail⟩

theorem length_rest_lt {ws rest : List Word} {i : Instr} (h : decode ws = .done i rest) : rest.length < ws.length := by
  obtain ⟨-, rfl⟩ := encode_of_decode h
  simp [encode_eq]

/-- A complete command leaves fewer words, and any other reading ends the split. -/
theorem existsUnique_isSplit (ws : List Word) : ∃! p, IsSplit ws p := by
  induction hn : ws.length using Nat.strong_induction_on generalizing ws with
  | _ n ih =>
  by_cases hread : Unread ws
  · refine ⟨([], ws), isSplit_nil.2 ⟨rfl, hread⟩, ?_⟩
    rintro ⟨_ | ⟨j, js⟩, tail⟩ hp
    · rw [(isSplit_nil.1 hp).1]
    · obtain ⟨rest, hd, -⟩ := isSplit_cons.1 hp
      exact absurd hd (unread_iff.1 hread j rest)
  · obtain ⟨i, rest, hd⟩ : ∃ i rest, decode ws = .done i rest := by simpa [unread_iff] using hread
    obtain ⟨⟨is, tail⟩, hsplit, huniq⟩ := ih _ (hn ▸ length_rest_lt hd) rest rfl
    refine ⟨(i :: is, tail), isSplit_cons.2 ⟨rest, hd, hsplit⟩, ?_⟩
    rintro ⟨_ | ⟨j, js⟩, tail'⟩ hp
    · obtain ⟨rfl, hunread⟩ := isSplit_nil.1 hp
      exact absurd hunread hread
    · obtain ⟨rest', hd', hp'⟩ := isSplit_cons.1 hp
      rw [hd] at hd'
      cases hd'
      cases huniq _ hp'
      rfl

/-- Settles O3: the reading of the words says whether a split goes on, and with which command. -/
theorem wordStreamSplitsUniquely : Obligations.WordStreamSplitsUniquely := existsUnique_isSplit

/-- Settles O7: decoding stops at the end of a command and at the first word that fails its check. -/
theorem laterWordsDoNotChangeTheReading : Obligations.LaterWordsDoNotChangeTheReading :=
  fun _ more => ⟨fun _ h => decode_append_of_malformed h more, fun _ _ h => decode_append_of_done h more,
    decode_prefix_incomplete⟩

/-- Settles O8: the seven sequences are closed, and the decoder runs on them. -/
theorem specWordsDecode : Obligations.SpecWordsDecode := by
  unfold Obligations.SpecWordsDecode
  decide

end Sys2Proof
end

section
/-! The opcode map (R90): a header selects a row by its opcode and a short operand that the row admits, and decoding
agrees with the rows. -/

namespace Sys2Proof

/-! ## Words by their halves -/

theorem high_and (w v : Word) : (w &&& v).high = w.high &&& v.high := BitVec.extractLsb'_and

theorem low_and (w v : Word) : (w &&& v).low = w.low &&& v.low := BitVec.extractLsb'_and

theorem word_eq_iff {w v : Word} : w = v ↔ w.high = v.high ∧ w.low = v.low := by
  refine ⟨fun h => h ▸ ⟨rfl, rfl⟩, fun ⟨hhigh, hlow⟩ => ?_⟩
  rw [← headerWord_high_low w, hhigh, hlow, headerWord_high_low]

theorem and_low_colour (w : Word) : w &&& 0x3 = 0x3 ↔ w.low &&& 0x03 = 0x03 := by
  rw [word_eq_iff, high_and, low_and]
  simp [Word.high, Word.low]

theorem and_high_colour (w : Word) : w &&& 0xC = 0xC ↔ w.low &&& 0x0C = 0x0C := by
  rw [word_eq_iff, high_and, low_and]
  simp [Word.high, Word.low]

theorem extractLsb'_low (w : Word) {k : Nat} (hk : k + 2 ≤ 8) : w.low.extractLsb' k 2 = w.extractLsb' k 2 := by
  ext j hj
  have hlt : k + j < 8 := by omega
  simp [Word.low, hlt]

/-! ## Short operands that a row admits -/

/-- The check of a short operand (R84, R92): no bit of `reserved` is set, and no colour field that is there is 3. -/
def admits (reserved : Byte) (oneColour twoColours : Bool) (a : Byte) : Bool :=
  decide (a &&& reserved = 0) && (!oneColour || decide (a &&& 0x03 ≠ 0x03))
    && (!twoColours || decide (a &&& 0x0C ≠ 0x0C))

theorem isSome_flagOf? : ∀ {a : Byte}, (flagOf? a).isSome = admits 0xFE false false a := by decide

theorem isSome_colourOf? : ∀ {a : Byte}, (colourOf? a).isSome = admits 0xFC true false a := by decide

theorem isSome_coloursOf? : ∀ {a : Byte}, (coloursOf? a).isSome = admits 0xF0 true true a := by decide

theorem admits_none : ∀ {a : Byte}, admits 0xFF false false a = decide (a = 0) := by decide

theorem admits_all : ∀ {a : Byte}, admits 0x00 false false a = true := by decide

/-- The reading of a header that passes its check when its short operand is legal, and is reserved when not (R92). -/
def PassesWhen (legal : Bool) (reading : Except FaultCause Header) : Prop :=
  (legal = true → ∃ hd, reading = .ok hd) ∧ (legal = false → reading = .error .fReserved)

theorem passesWhen_ok {legal : Bool} (h : legal = true) (hd : Header) : PassesWhen legal (.ok hd) :=
  ⟨fun _ => ⟨hd, rfl⟩, fun hn => absurd (h.symm.trans hn) Bool.noConfusion⟩

theorem passesWhen_checked {α : Type} {operand : Option α} {legal : Bool} (h : operand.isSome = legal)
    (sel : α → Header) : PassesWhen legal (checked operand sel) := by
  subst h
  cases operand with
  | none => exact ⟨nofun, fun _ => rfl⟩
  | some x => exact ⟨fun _ => ⟨sel x, rfl⟩, nofun⟩

theorem passesWhen_noOperand {a : Byte} {legal : Bool} (h : legal = decide (a = 0)) (hd : Header) :
    PassesWhen legal (noOperand a hd) := by
  subst h
  constructor <;> intro ha
  · exact ⟨hd, if_pos (of_decide_eq_true ha)⟩
  · exact if_neg (of_decide_eq_false ha)

/-- The header check, row by row in the order of R90's table: the row's opcode, then its short operand. -/
theorem decodeHeader_row : ∀ r ∈ opcodeRows, ∀ a,
    PassesWhen (admits r.mask.low r.oneColour r.twoColours a) (decodeHeader (headerWord r.matchBits.high a)) := by
  unfold decodeHeader
  simp only [high_headerWord, low_headerWord, opcodeRows, configRows, drawRows, List.forall_mem_append,
    List.forall_mem_cons]
  have whole := fun hd (a : Byte) => passesWhen_ok (admits_all (a := a)) hd
  have flag := fun sel (a : Byte) => passesWhen_checked (isSome_flagOf? (a := a)) sel
  have bare := fun hd (a : Byte) => passesWhen_noOperand (admits_none (a := a)) hd
  have colour := fun sel (a : Byte) => passesWhen_checked (isSome_colourOf? (a := a)) sel
  have colours := fun sel (a : Byte) => passesWhen_checked (isSome_coloursOf? (a := a)) sel
  exact ⟨⟨fun a => whole _ a, flag _, flag _, fun a => whole _ a, flag _, fun a => whole _ a, fun a => whole _ a,
      bare _, bare _, bare _, bare _, bare _, bare _, bare _, List.forall_mem_nil _⟩,
    colour _, colour _, colour _, colour _, colour _, colour _, colour _, colours _, bare _, List.forall_mem_nil _⟩

/-! ## Rows -/

/-- Every mask covers the opcode, every match leaves the short operand zero, and the extra conditions are
those of R90. -/
theorem opcodeRow_fields : ∀ r ∈ opcodeRows, r.mask.high = 0xFF ∧ r.matchBits.low = 0 ∧
    (r.oneColour = true ↔ r.matchBits.high.toNat / 16 = 2) ∧ (r.twoColours = true ↔ r.mnemonic = "GTEXT") := by
  decide

theorem opcodeRow_eq_of_opcode {r r' : OpcodeRow} (hr : r ∈ opcodeRows) (hr' : r' ∈ opcodeRows)
    (h : r.matchBits.high = r'.matchBits.high) : r = r' :=
  List.inj_on_of_nodup_map (f := fun r => r.matchBits.high) (by decide) hr hr' h

theorem colourField_eq_three : ∀ {a : Byte},
    (a.extractLsb' 0 2 = 3 ↔ a &&& 0x03 = 0x03) ∧ (a.extractLsb' 2 2 = 3 ↔ a &&& 0x0C = 0x0C) := by decide

theorem selects_iff {r : OpcodeRow} {w : Word} : r.selects w = true ↔
    w &&& r.mask = r.matchBits ∧ (r.oneColour = true → w.low &&& 0x03 ≠ 0x03) ∧
      (r.twoColours = true → w.low &&& 0x0C ≠ 0x0C) := by
  obtain ⟨hone, htwo⟩ := colourField_eq_three (a := w.low)
  rw [extractLsb'_low w (by decide)] at hone htwo
  simp only [OpcodeRow.selects, ne_eq, hone, htwo, Bool.and_eq_true, Bool.or_eq_true, Bool.not_eq_true',
    decide_eq_true_eq, ← Bool.not_eq_true, ← imp_iff_not_or, and_assoc]

theorem admits_iff {reserved a : Byte} {oneColour twoColours : Bool} : admits reserved oneColour twoColours a = true ↔
    a &&& reserved = 0 ∧ (oneColour = true → a &&& 0x03 ≠ 0x03) ∧ (twoColours = true → a &&& 0x0C ≠ 0x0C) := by
  simp only [admits, Bool.and_eq_true, Bool.or_eq_true, Bool.not_eq_true', decide_eq_true_eq,
    ← Bool.not_eq_true, ← imp_iff_not_or, and_assoc]

/-- A row is selected by its opcode with a short operand that the row admits. -/
theorem selects_iff_admits {r : OpcodeRow} (hr : r ∈ opcodeRows) {w : Word} : r.selects w = true ↔
    w.high = r.matchBits.high ∧ admits r.mask.low r.oneColour r.twoColours w.low = true := by
  obtain ⟨hmask, hmatch, -, -⟩ := opcodeRow_fields r hr
  have hall : w.high &&& 0xFF = w.high := BitVec.and_allOnes
  rw [selects_iff, admits_iff, word_eq_iff, high_and, low_and, hmask, hmatch, hall, and_assoc]

theorem decodeHeader_of_selects {r : OpcodeRow} (hr : r ∈ opcodeRows) {w : Word} (h : r.selects w = true) :
    ∃ hd, decodeHeader w = .ok hd := by
  obtain ⟨hop, ha⟩ := (selects_iff_admits hr).1 h
  rw [← headerWord_high_low w, hop]
  exact (decodeHeader_row r hr w.low).1 ha

/-- A header with an assigned opcode that selects no row has a reserved short operand (R92). -/
theorem decodeHeader_of_not_selects {r : OpcodeRow} (hr : r ∈ opcodeRows) {w : Word} (hop : w.high = r.matchBits.high)
    (h : r.selects w = false) : decodeHeader w = .error .fReserved := by
  rw [← headerWord_high_low w, hop]
  refine (decodeHeader_row r hr w.low).2 (Bool.eq_false_iff.2 fun ha => ?_)
  exact absurd h (by rw [(selects_iff_admits hr).2 ⟨hop, ha⟩]; decide)

/-- The header word of every command selects a row that bears its mnemonic and format, and its words number as that
format says. -/
theorem opcodeMap : ∀ i, Laws.OpcodeMap.Statement i
  | .setorient sel => Laws.OpcodeMap.setorient sel
  | .setpen f => Laws.OpcodeMap.setpen f
  | .setinv f => Laws.OpcodeMap.setinv f
  | .selfont sel => Laws.OpcodeMap.selfont sel
  | .setfsolid f => Laws.OpcodeMap.setfsolid f
  | .setfspx v => Laws.OpcodeMap.setfspx v
  | .setfspy v => Laws.OpcodeMap.setfspy v
  | .getorient => Laws.OpcodeMap.getorient
  | .sizex => Laws.OpcodeMap.sizex
  | .sizey => Laws.OpcodeMap.sizey
  | .getfont => Laws.OpcodeMap.getfont
  | .fontmax => Laws.OpcodeMap.fontmax
  | .charszx => Laws.OpcodeMap.charszx
  | .rdpix x y => Laws.OpcodeMap.rdpix x y
  | .clear c => Laws.OpcodeMap.clear c
  | .point x y c => Laws.OpcodeMap.point x y c
  | .line x1 y1 x2 y2 c => Laws.OpcodeMap.line x1 y1 x2 y2 c
  | .dline x0 y0 dx dy c => Laws.OpcodeMap.dline x0 y0 dx dy c
  | .rect x1 y1 x2 y2 c => Laws.OpcodeMap.rect x1 y1 x2 y2 c
  | .drect x0 y0 dx dy c => Laws.OpcodeMap.drect x0 y0 dx dy c
  | .circle x0 y0 r c => Laws.OpcodeMap.circle x0 y0 r c
  | .gtext x0 y0 fg bg text => Laws.OpcodeMap.gtext x0 y0 fg bg text
  | .xfer => Laws.OpcodeMap.xfer

theorem length_encode (i : Instr) : (encode i).length = i.format.words i.textLength := by
  obtain ⟨_, _, _, -, -, -, -, -, hlen⟩ := opcodeMap i
  exact hlen

theorem selects_header_word (i : Instr) :
    ∃ r ∈ opcodeRows, r.selects i.header.word = true ∧ r.mnemonic = i.mnemonic ∧ r.format = i.format := by
  obtain ⟨w, ws, r, henc, hr, hsel, hmnemonic, hformat, -⟩ := opcodeMap i
  rw [encode_eq] at henc
  cases henc
  exact ⟨r, hr, hsel, hmnemonic, hformat⟩

/-- No header selects two rows: the rows' opcodes differ (R90). -/
theorem selects_unique {r r' : OpcodeRow} (hr : r ∈ opcodeRows) (hr' : r' ∈ opcodeRows) {w : Word}
    (h : r.selects w = true) (h' : r'.selects w = true) : r = r' := by
  obtain ⟨hop, -⟩ := (selects_iff_admits hr).1 h
  obtain ⟨hop', -⟩ := (selects_iff_admits hr').1 h'
  exact opcodeRow_eq_of_opcode hr hr' (hop.symm.trans hop')

/-- A header that selects a row is the header word of a well-formed command. -/
theorem exists_instr_of_selects {r : OpcodeRow} (hr : r ∈ opcodeRows) {w : Word} (h : r.selects w = true) :
    ∃ i : Instr, i.wf = true ∧ w = i.header.word := by
  obtain ⟨hd, hread⟩ := decodeHeader_of_selects hr h
  obtain ⟨hwf, hheader, hw⟩ := withZeros_of_decodeHeader hread
  exact ⟨hd.withZeros, hwf, by rw [hheader, hw]⟩

/-- A command whose header word selects a row has the row's mnemonic and format. -/
theorem row_of_selects_header_word {r : OpcodeRow} (hr : r ∈ opcodeRows) {i : Instr}
    (h : r.selects i.header.word = true) : i.mnemonic = r.mnemonic ∧ i.format = r.format := by
  obtain ⟨r', hr', hsel, hmnemonic, hformat⟩ := selects_header_word i
  rw [selects_unique hr hr' h hsel]
  exact ⟨hmnemonic.symm, hformat.symm⟩

/-- A header that selects no row fails its check (R90). -/
theorem decode_of_no_row {w : Word} (h : ∀ r ∈ opcodeRows, r.selects w = false) (ws : List Word) :
    ∃ cause, decode (w :: ws) = .malformed cause := by
  cases hread : decodeHeader w with
  | error cause => exact ⟨cause, by simp only [decode, hread]⟩
  | ok hd =>
    obtain ⟨-, hheader, hw⟩ := withZeros_of_decodeHeader hread
    obtain ⟨r, hr, hsel, -⟩ := selects_header_word hd.withZeros
    rw [hheader, ← hw, h r hr] at hsel
    cases hsel

/-- Settles O4: the rows' opcodes differ, and the headers that pass their check are those that select a row. -/
theorem headerSelectsItsRow : Obligations.HeaderSelectsItsRow := by
  refine ⟨rfl, ?selection, fun w => ⟨?unique, ?completed, ?named, decode_of_no_row⟩⟩
  case selection =>
    intro r hr w
    obtain ⟨-, -, hone, htwo⟩ := opcodeRow_fields r hr
    simp only [selects_iff, hone, htwo, ne_eq, and_low_colour, and_high_colour]
  case unique => exact fun r hr r' hr' h h' => selects_unique hr hr' h h'
  case completed =>
    intro r hr h
    obtain ⟨i, hwf, rfl⟩ := exists_instr_of_selects hr h
    exact ⟨i.operandWords, i, encode_eq i ▸ decode_encode_self hwf⟩
  case named =>
    intro r hr h ws i rest hd
    obtain ⟨-, hws⟩ := encode_of_decode hd
    rw [encode_eq] at hws
    cases hws
    exact row_of_selects_header_word hr h

end Sys2Proof
end

section
/-! Words arriving at the command port: the fault that a word failing its check enters, and the steps that take in a
command. -/

namespace Sys2Proof

/-! ## Words that fail their check -/

/-- An opcode outside R90's table is unassigned (R91). -/
theorem decodeHeader_of_unassigned {w : Word}
    (h : w.high.toNat = 0x00 ∨ (0x08 ≤ w.high.toNat ∧ w.high.toNat ≤ 0x0F) ∨
      (0x17 ≤ w.high.toNat ∧ w.high.toNat ≤ 0x1F) ∨ (0x28 ≤ w.high.toNat ∧ w.high.toNat ≤ 0x2F) ∨
      0x31 ≤ w.high.toNat) : decodeHeader w = .error .fOpcode := by
  unfold decodeHeader
  split
  case h_24 => rfl
  all_goals omega

theorem decode_of_header_error {w : Word} {cause : FaultCause} (h : decodeHeader w = .error cause) (ws : List Word) :
    decode (w :: ws) = .malformed cause := by
  simp only [decode, h]

theorem decodeHeader_of_legalColours {a : Byte} (h : Claims.legalColours a) :
    ∃ fg bg, decodeHeader (headerWord 0x27 a) = .ok (.gtext fg bg) := by
  obtain ⟨hreserved, hfg, hbg⟩ := h
  have hadm : admits 0xF0 true true a = true := admits_iff.2 ⟨hreserved, fun _ => hfg, fun _ => hbg⟩
  rw [← isSome_coloursOf?] at hadm
  obtain ⟨⟨fg, bg⟩, hc⟩ := Option.isSome_iff_exists.1 hadm
  exact ⟨fg, bg, by simp [decodeHeader, hc, checked]⟩

/-- A length word with bits 15:8 set is malformed as soon as it is there (R92). -/
theorem decode_gtext_bad_length {a : Byte} (h : Claims.legalColours a) {n : Word} (hn : n.high ≠ 0) (x0 y0 : Word) :
    decode [headerWord 0x27 a, x0, y0, n] = .malformed .fReserved := by
  obtain ⟨fg, bg, hread⟩ := decodeHeader_of_legalColours h
  simp only [decode, hread, decodeOperands, decodeGtext, if_neg hn]

theorem toNat_low {n : Word} (hn : n.high = 0) : n.low.toNat = n.toNat := by
  conv_rhs => rw [← byteWord_low hn]
  exact ((BitVec.toNat_append 0#8 n.low).trans (by simp)).symm

/-- A character word with bits 15:8 set is malformed as soon as it is there (R92). -/
theorem decode_gtext_bad_character {a : Byte} (h : Claims.legalColours a) {n w : Word} (hn : n.high = 0)
    {chars : List Word} (hchars : ∀ v ∈ chars, v.high = 0) (hlen : chars.length < n.toNat) (hw : w.high ≠ 0)
    (x0 y0 : Word) : decode (headerWord 0x27 a :: x0 :: y0 :: n :: (chars ++ [w])) = .malformed .fReserved := by
  obtain ⟨fg, bg, hread⟩ := decodeHeader_of_legalColours h
  rw [← toNat_low hn] at hlen
  simp only [decode, hread, decodeOperands, decodeGtext, if_pos hn, takeChars_bad hchars hlen hw []]

/-- Operand words of formats P, C and Q are all legal: as many as the format says complete the command (R92). -/
theorem decodeOperands_of_length {i : Instr} (hf : i.format = .p ∨ i.format = .c ∨ i.format = .q) {ws : List Word}
    (hlen : ws.length + 1 = i.format.words 0) : ∃ j, decodeOperands i.header ws = .done j [] := by
  cases i with
  | rdpix | point =>
    match ws, hlen with
    | [_, _], _ => exact ⟨_, rfl⟩
  | circle =>
    match ws, hlen with
    | [_, _, _], _ => exact ⟨_, rfl⟩
  | line | dline | rect | drect =>
    match ws, hlen with
    | [_, _, _, _], _ => exact ⟨_, rfl⟩
  | _ => simp [Instr.format] at hf

end Sys2Proof

namespace Sys2Proof.Machine

theorem faultStatus_eq_statusAfter (cause : FaultCause) : faultStatus cause = Claims.statusAfter cause := by
  cases cause <;> rfl

section
variable {s : State} {w : Word} {rest : List PortEvent} (hin : s.input = .word w :: rest) (hf : s.faulted = false)
include hin hf

/-- Fault entry field by field (R241). -/
theorem step_of_malformed_fields {cause : FaultCause} (hd : decode (s.asm ++ [w]) = .malformed cause) :
    step s = .next { s with input := rest, asm := [], status := Claims.statusAfter cause } := by
  rw [step_of_malformed hin hf hd, State.enterFault_eq, faultStatus_eq_statusAfter]
  rfl

/-- A header that fails its check enters the fault, and the buffer was empty before (R83). -/
theorem step_of_header_error {cause : FaultCause} (hasm : s.asm = []) (hread : decodeHeader w = .error cause) :
    step s = .next { s with input := rest, status := Claims.statusAfter cause } := by
  have hd : decode (s.asm ++ [w]) = .malformed cause := by rw [hasm]; exact decode_of_header_error hread []
  rw [step_of_malformed_fields hin hf hd, ← hasm]

end

/-- Settles O5: no branch of the header check has an unassigned opcode. -/
theorem unassignedOpcodeFaults : Obligations.UnassignedOpcodeFaults :=
  fun _ _ _ hf hasm hin hop => step_of_header_error hin hf hasm (decodeHeader_of_unassigned hop)

/-- Settles O6: the header, the length word, a character word, and the formats whose operand words are all legal. -/
theorem reservedFieldFaults : Obligations.ReservedFieldFaults := by
  refine ⟨?header, ?length, ?character, ?operands⟩
  case header =>
    rintro s w rest hf hasm hin ⟨r, hr, hop⟩ hnone
    exact step_of_header_error hin hf hasm (decodeHeader_of_not_selects hr hop (hnone r hr))
  case length =>
    intro s a x0 y0 n rest hf ha hasm hin hn
    refine step_of_malformed_fields hin hf ?_
    rw [hasm]
    exact decode_gtext_bad_length ha hn x0 y0
  case character =>
    intro s a x0 y0 n w chars rest hf ha hn hchars hlen hasm hin hw
    refine step_of_malformed_fields hin hf ?_
    rw [hasm]
    exact decode_gtext_bad_character ha hn hchars hlen hw x0 y0
  case operands =>
    intro r hr hformat w hsel ws hlen
    obtain ⟨i, -, rfl⟩ := exists_instr_of_selects hr hsel
    obtain ⟨-, hsame⟩ := row_of_selects_header_word hr hsel
    rw [← hsame] at hformat hlen
    simpa only [decode, decodeHeader_word] using decodeOperands_of_length hformat hlen

/-! ## Steps in a row -/

theorem run_succ_of_next {M : Host.Core} {k : Nat} {s t : M.State} (h : M.step s = .next t) :
    M.run (k + 1) s = M.run k t := by
  rw [Host.Core.run, h]

theorem run_one {M : Host.Core} (s : M.State) : M.run 1 s = M.step s := by
  rw [Host.Core.run]
  cases M.step s <;> rfl

/-- Words that leave the command incomplete join the buffer one by one, and nothing else changes but the port; the steps
that follow go on from there (R33). -/
theorem run_of_incomplete {s : State} (hf : s.faulted = false) {ws : List Word} {rest : List PortEvent}
    (hin : s.input = ws.map .word ++ rest) (hd : decode (s.asm ++ ws) = .incomplete) (k : Nat) :
    Host.Core.run core (ws.length + k) s = Host.Core.run core k { s with asm := s.asm ++ ws, input := rest } := by
  induction ws generalizing s with
  | nil =>
    have hrest : s.input = rest := hin
    have hsame : s = { s with asm := s.asm ++ [], input := rest } := by rw [List.append_nil, ← hrest]
    rw [← hsame, List.length_nil, Nat.zero_add]
  | cons w ws ih =>
    rw [List.append_cons] at hd ⊢
    have hstep := step_of_incomplete hin hf (decode_prefix_incomplete hd)
    rw [List.length_cons, Nat.add_right_comm, run_succ_of_next (M := core) hstep]
    exact ih (s := (s.setInput _).setAsm _) hf rfl hd

/-- The last word of a command executes it, with the buffer emptied (R82, R33). -/
theorem run_of_done {s : State} (hf : s.faulted = false) {ws : List Word} {w : Word} {rest : List PortEvent} {i : Instr}
    (hin : s.input = (ws ++ [w]).map .word ++ rest) (hd : decode (s.asm ++ ws ++ [w]) = .done i []) :
    Host.Core.run core (ws ++ [w]).length s = exec i { s with asm := [], input := rest } := by
  rw [List.map_append, List.append_assoc] at hin
  rw [List.length_append, run_of_incomplete hf hin (decode_proper_prefix hd (by simp))]
  exact (run_one (M := core) _).trans <| step_of_done (s := { s with asm := s.asm ++ ws, input := _ }) rfl hf hd

/-- A command whose words come next has executed when all of them have arrived (R82). -/
theorem run_encode {i : Instr} {s : State} {rest : List PortEvent} (hwf : i.wf = true) (hf : s.faulted = false)
    (hasm : s.asm = []) (hin : s.input = (encode i).map .word ++ rest) :
    Host.Core.run core (encode i).length s = exec i { s with input := rest } := by
  have hsame : ({ s with input := rest } : State) = { s with asm := [], input := rest } := by rw [← hasm]
  have hd := decode_encode_self hwf
  obtain ⟨ws, w, hws⟩ : ∃ ws w, encode i = ws ++ [w] :=
    (List.eq_nil_or_concat' (encode i)).resolve_left (by simp [encode_eq])
  rw [hws] at hin hd ⊢
  rw [hsame, run_of_done hf hin (by rw [hasm]; exact hd)]

/-- The words of a command but the last are held. -/
theorem decode_take_encode {i : Instr} (hwf : i.wf = true) {k : Nat} (hk : k < (encode i).length) :
    decode ((encode i).take k) = .incomplete := by
  have hd : decode ((encode i).take k ++ (encode i).drop k) = .done i [] := by
    rw [List.take_append_drop, decode_encode_self hwf]
  exact decode_proper_prefix hd (by simpa using hk)

/-- Settles O10: the words but the last are held, and all of them execute the command. -/
theorem commandExecutesOnItsLastWord : Obligations.CommandExecutesOnItsLastWord := by
  refine fun i s rest hwf hf hasm hin => ⟨length_encode i, fun k hk => ?held, run_encode hwf hf hasm hin⟩
  case held =>
    have hin' : s.input = ((encode i).take k).map .word ++ (((encode i).drop k).map .word ++ rest) := by
      rw [← List.append_assoc, ← List.map_append, List.take_append_drop, hin]
    have hd : decode (s.asm ++ (encode i).take k) = .incomplete := by rw [hasm]; exact decode_take_encode hwf hk
    have hrun := run_of_incomplete hf hin' hd 0
    rwa [List.length_take_of_le hk.le, hasm] at hrun

end Sys2Proof.Machine
end

section
/-! The set and query commands: their header words, what their selectors store and their queries answer, and the short
operands that are malformed. -/

namespace Sys2Proof

/-! ## Header words -/

/-- A header word is its opcode above its short operand (R80). -/
theorem headerWord_eq_or (op a : Byte) : headerWord op a = headerWord op 0 ||| a.setWidth 16 := by
  have hwide : a.setWidth 16 = headerWord 0 a := BitVec.setWidth_eq_append (by decide)
  have hhalves := BitVec.or_append (x₁ := op) (x₂ := 0#8) (y₁ := 0#8) (y₂ := a)
  rw [BitVec.or_zero, BitVec.zero_or] at hhalves
  exact hwide ▸ hhalves.symm

theorem headerWord_flagField (op : Byte) (f : Bool) :
    headerWord op (flagField f) = if f then headerWord op 1 else headerWord op 0 := by
  cases f <;> rfl

/-! ## Malformed short operands -/

/-- An opcode of R90's map faults on every short operand that its row does not admit (R92). -/
theorem reservedFaults_of_row {op reserved : Byte} {oneColour twoColours : Bool}
    (hrow : ∃ r ∈ opcodeRows, r.matchBits.high = op ∧ r.mask.low = reserved ∧ r.oneColour = oneColour ∧
      r.twoColours = twoColours)
    {legal : Byte → Prop} (hlegal : ∀ a, admits reserved oneColour twoColours a = true → legal a) :
    Claims.reservedFaults op legal := by
  obtain ⟨r, hr, rfl, rfl, rfl, rfl⟩ := hrow
  intro a ws ha
  have hadmits : admits r.mask.low r.oneColour r.twoColours a = false := Bool.eq_false_iff.2 (mt (hlegal a) ha)
  exact decode_of_header_error ((decodeHeader_row r hr a).2 hadmits) ws

theorem legalFlag_of_admits (a : Byte) (h : admits 0xFE false false a = true) : Claims.legalFlag a :=
  (admits_iff.1 h).1

theorem legalNone_of_admits (a : Byte) (h : admits 0xFF false false a = true) : Claims.legalNone a := by
  rw [admits_none, decide_eq_true_eq] at h
  exact h

end Sys2Proof

namespace Sys2Proof.Machine

/-! ## What SETORIENT stores (R111) -/

theorem orientFor_legal {p : Params} {sel : Byte} (h : sel.toNat ≤ 3) : (orientFor p sel).toNat = sel.toNat := by
  rw [orientFor, if_pos h, BitVec.toNat_setWidth, Nat.mod_eq_of_lt (by omega)]

theorem orientFor_six (p : Params) : (orientFor p 6).toNat = if p.h < p.v then 1 else 0 :=
  apply_ite BitVec.toNat (p.h < p.v) 1 0

theorem orientFor_seven (p : Params) : (orientFor p 7).toNat = if p.v < p.h then 1 else 0 :=
  apply_ite BitVec.toNat (p.v < p.h) 1 0

theorem orientFor_other {p : Params} {sel : Byte} (h : sel.toNat = 4 ∨ sel.toNat = 5 ∨ 8 ≤ sel.toNat) :
    orientFor p sel = 3 := by
  have hsix : sel ≠ 6 := by rintro rfl; exact absurd h (by decide)
  have hseven : sel ≠ 7 := by rintro rfl; exact absurd h (by decide)
  rw [orientFor, if_neg (by omega), if_neg hsix, if_neg hseven]

/-- Settles O28: the four ranges of selectors are the branches of `orientFor`. -/
theorem setorientSelectsOrClamps : Obligations.SetorientSelectsOrClamps := by
  refine ⟨fun sel s => ⟨orientFor s.params sel, rfl, orientFor_legal, ?six, ?seven, ?other, ?header⟩, ?whole⟩
  case six =>
    intro h
    obtain rfl : sel = 6 := BitVec.eq_of_toNat_eq h
    exact orientFor_six s.params
  case seven =>
    intro h
    obtain rfl : sel = 7 := BitVec.eq_of_toNat_eq h
    exact orientFor_seven s.params
  case other => exact fun h => congrArg BitVec.toNat (orientFor_other h)
  case header => exact congrArg (fun w => [w]) (headerWord_eq_or 0x01 sel)
  case whole => exact fun sel ws => ⟨_, decode_encode (i := .setorient sel) rfl ws⟩

/-- Settles O29: each flag's row reserves bits 7:1. -/
theorem flagCommandsWriteTheirFlag : Obligations.FlagCommandsWriteTheirFlag := by
  refine ⟨fun f s => ⟨rfl, ?pen, rfl, ?inv, rfl, ?fsolid⟩, ?penReserved, ?invReserved, ?fsolidReserved⟩
  case pen => exact congrArg (fun w => [w]) (headerWord_flagField 0x02 f)
  case inv => exact congrArg (fun w => [w]) (headerWord_flagField 0x03 f)
  case fsolid => exact congrArg (fun w => [w]) (headerWord_flagField 0x05 f)
  all_goals exact reservedFaults_of_row (by decide) legalFlag_of_admits

/-- Settles O30: the clamped number fits the register, as the selector does. -/
theorem selfontClamps : Obligations.SelfontClamps := by
  refine ⟨fun sel s => ⟨fontFor s.params sel, rfl, fontFor_toNat s.params sel, ?header⟩, ?whole⟩
  case header => exact congrArg (fun w => [w]) (headerWord_eq_or 0x04 sel)
  case whole => exact fun sel ws => ⟨_, decode_encode (i := .selfont sel) rfl ws⟩

/-- Settles O31: the register takes the operand as it stands. -/
theorem spacingCommandsStoreTheirValue : Obligations.SpacingCommandsStoreTheirValue := by
  refine ⟨fun v s => ⟨rfl, ?fspx, rfl, ?fspy⟩, ?fspxWhole, ?fspyWhole⟩
  case fspx => exact congrArg (fun w => [w]) (headerWord_eq_or 0x06 v)
  case fspy => exact congrArg (fun w => [w]) (headerWord_eq_or 0x07 v)
  case fspxWhole => exact fun v ws => ⟨_, decode_encode (i := .setfspx v) rfl ws⟩
  case fspyWhole => exact fun v ws => ⟨_, decode_encode (i := .setfspy v) rfl ws⟩

/-! ## What the queries answer -/

theorem ofNat_word_toNat {n : Nat} (h : n < 65536) : (BitVec.ofNat 16 n).toNat = n :=
  (BitVec.toNat_ofNat n 16).trans (Nat.mod_eq_of_lt h)

/-- The orientations 1 and 3 by their number (R118). -/
theorem orient_turned_iff (o : BitVec 2) : (o = 1 ∨ o = 3) ↔ (o.toNat = 1 ∨ o.toNat = 3) :=
  or_congr BitVec.toNat_inj.symm BitVec.toNat_inj.symm

theorem sizeX_eq_extentX (p : Params) (o : BitVec 2) : p.sizeX o = Claims.extentX p o := by
  simp only [Params.sizeX, Claims.extentX, orient_turned_iff]

theorem sizeY_eq_extentY (p : Params) (o : BitVec 2) : p.sizeY o = Claims.extentY p o := by
  simp only [Params.sizeY, Claims.extentY, orient_turned_iff]

/-- The extents of a legal instance fit a response word (R3). -/
theorem extent_lt {p : Params} (h : p.wf = true) (o : BitVec 2) :
    Claims.extentX p o < 65536 ∧ Claims.extentY p o < 65536 := by
  obtain ⟨-, hv, -, hh⟩ := p.wf_geometry h
  constructor
  · unfold Claims.extentX; split <;> omega
  · unfold Claims.extentY; split <;> omega

theorem sizeX_word_toNat {p : Params} (h : p.wf = true) (o : BitVec 2) :
    (BitVec.ofNat 16 (p.sizeX o)).toNat = Claims.extentX p o := by
  rw [sizeX_eq_extentX, ofNat_word_toNat (extent_lt h o).1]

theorem sizeY_word_toNat {p : Params} (h : p.wf = true) (o : BitVec 2) :
    (BitVec.ofNat 16 (p.sizeY o)).toNat = Claims.extentY p o := by
  rw [sizeY_eq_extentY, ofNat_word_toNat (extent_lt h o).2]

theorem fontCountWord_toNat {p : Params} (h : p.fontCount < 65536) : (fontCountWord p).toNat = p.fontCount := by
  rw [fontCountWord, if_pos h, ofNat_word_toNat h]

/-- The sum that `CHARSZX` answers is at most 510, so that no bit of it is lost (R124, R201). -/
theorem characterSize_word_toNat {s : State} (h : s.params.wf = true) (hf : s.font.toNat < s.params.fontCount) :
    (BitVec.ofNat 16 ((s.params.metrics s.font.toNat).maxWidth + s.fspx.toNat)).toNat =
      (s.params.metrics s.font.toNat).maxWidth + s.fspx.toNat := by
  have hwidth := Params.metrics_maxWidth_le h hf
  have hspace := s.fspx.isLt
  exact ofNat_word_toNat (by omega)

/-- Settles O32: the answers fit their word, and orientation 1 swaps the extents of orientation 0. -/
theorem extentQueriesAnswer : Obligations.ExtentQueriesAnswer := by
  refine ⟨fun s hwf => ⟨⟨_, rfl, ?orient⟩, ⟨_, rfl, ?sizex⟩, ⟨_, rfl, ?sizey⟩⟩, fun p => ⟨rfl, rfl⟩, rfl, rfl, rfl,
    ?orientReserved, ?sizexReserved, ?sizeyReserved⟩
  case orient => exact BitVec.toNat_setWidth_of_le (by decide)
  case sizex => exact sizeX_word_toNat hwf s.orient
  case sizey => exact sizeY_word_toNat hwf s.orient
  all_goals exact reservedFaults_of_row (by decide) legalNone_of_admits

/-- Settles O33: the answers fit their word, `FONTMAX`'s where `FONT_COUNT` does. -/
theorem fontQueriesAnswer : Obligations.FontQueriesAnswer := by
  refine ⟨fun s hwf hf => ⟨⟨_, rfl, ?font⟩, ⟨_, rfl, fontCountWord_toNat⟩, ⟨_, rfl, ?charszx⟩⟩, rfl, rfl, rfl,
    ?fontReserved, ?fontmaxReserved, ?charszxReserved⟩
  case font => exact BitVec.toNat_setWidth_of_le (by decide)
  case charszx => exact characterSize_word_toNat hwf hf
  all_goals exact reservedFaults_of_row (by decide) legalNone_of_admits

end Sys2Proof.Machine
end

section
/-! The pixel commands (spec/41_pixel_ops.md): the mapper's table, what a sequence of plots in one colour leaves, what
`CLEAR` leaves, and what reading a pixel back answers. -/

namespace Sys2Proof

/-! ## Header words with a colour -/

theorem headerWord_colourField (op : Byte) (c : Colour) :
    headerWord op (colourField c) = headerWord op 0 ||| Claims.codeWord c := by
  have hcode : (colourField c).setWidth 16 = Claims.codeWord c := by cases c <;> rfl
  rw [headerWord_eq_or, hcode]

theorem legalColour_of_admits (a : Byte) (h : admits 0xFC true false a = true) : Claims.legalColour a := by
  obtain ⟨hreserved, hcolour, -⟩ := admits_iff.1 h
  exact ⟨hreserved, hcolour rfl⟩

/-! ## The bytes of a run -/

/-- Byte `k` of run `r` lies in the plane, and its run is `r` (R51). -/
theorem Params.byte_of_run {p : Params} {r k : Nat} (hr : r < p.v) (hk : k < p.bsh) :
    r * p.bsh + k < p.planeBytes ∧ (r * p.bsh + k) / p.bsh = r := by
  rw [Params.planeBytes, Nat.mul_comm r]
  refine ⟨Nat.mul_add_lt_mul_of_lt_of_lt hr hk, ?_⟩
  rw [ Nat.mul_add_div (Nat.zero_lt_of_lt hk), Nat.div_eq_of_lt hk, Nat.add_zero]

end Sys2Proof

namespace Sys2Proof.Machine

/-! ## The mapper -/

/-- The mapper is defined on the logical rectangle of R118 and nowhere else. -/
theorem mapPixel_isSome_iff {p : Params} {o : BitVec 2} {x y : Int} :
    (∃ q, mapPixel p o x y = some q) ↔
      0 ≤ x ∧ x < Claims.extentX p o ∧ 0 ≤ y ∧ y < Claims.extentY p o := by
  rw [← sizeX_eq_extentX, ← sizeY_eq_extentY]
  exact ⟨fun ⟨_, hmap⟩ => (mapPixel_inside hmap).2, fun ⟨hx, hx', hy, hy'⟩ => mapPixel_isSome hx hx' hy hy'⟩

section
variable {p : Params} {q : BufferPixel} (hq : q.inside p)
include hq

/-- The inverses of the table of R141. -/
theorem mapPixel_inverse :
    mapPixel p 0 q.pos q.run = some q ∧ mapPixel p 1 q.run (p.h - 1 - q.pos) = some q ∧
      mapPixel p 2 (p.h - 1 - q.pos) (p.v - 1 - q.run) = some q ∧ mapPixel p 3 (p.v - 1 - q.run) q.pos = some q := by
  obtain ⟨run, pos⟩ := q
  obtain ⟨hrun, hpos⟩ := hq
  simp only at hrun hpos
  refine ⟨?_, ?_, ?_, ?_⟩ <;> simp [mapPixel] <;> omega

/-- Every pixel of the plane has a logical position under every orientation (R141). -/
theorem exists_mapPixel_eq (o : BitVec 2) : ∃ xy : Int × Int, mapPixel p o xy.1 xy.2 = some q := by
  obtain ⟨h0, h1, h2, h3⟩ := mapPixel_inverse hq
  rcases orient_cases o with rfl | rfl | rfl | rfl
  exacts [⟨(_, _), h0⟩, ⟨(_, _), h1⟩, ⟨(_, _), h2⟩, ⟨(_, _), h3⟩]

end

/-- Settles O34: the position that the table gives is the only one, since the mapper is injective. -/
theorem mapIsABijection : Obligations.MapIsABijection := by
  refine fun p o => ⟨fun x y => mapPixel_isSome_iff, fun x y q hmap => (mapPixel_inside hmap).1,
    fun q hrun hpos => ⟨?unique, mapPixel_inverse ⟨hrun, hpos⟩⟩⟩
  case unique =>
    obtain ⟨xy, hxy⟩ := exists_mapPixel_eq ⟨hrun, hpos⟩ o
    refine ⟨xy, hxy, fun xy' hxy' => ?_⟩
    obtain ⟨hx, hy⟩ := mapPixel_injective hxy' hxy
    exact Prod.ext hx hy

/-- The sum that the parity of a GREY point is taken of (R146). -/
theorem mapPixel_run_add_pos {p : Params} {o : BitVec 2} {x y : Int} {q : BufferPixel}
    (h : mapPixel p o x y = some q) :
    ((q.run + q.pos : Nat) : Int) =
      if o = 0 then x + y
      else if o = 1 then x + p.h - 1 - y
      else if o = 2 then p.v + p.h - 2 - x - y
      else p.v - 1 - x + y := by
  rcases orient_cases o with rfl | rfl | rfl | rfl <;> simp [mapPixel] at h ⊢ <;> obtain ⟨_, rfl⟩ := h <;>
    simp only <;> omega

/-! ## The bit of a colour (R144) -/

theorem bitFor_black (q : BufferPixel) (invert : Bool) : bitFor .black q invert = !invert := by
  cases invert <;> rfl

theorem bitFor_white (q : BufferPixel) (invert : Bool) : bitFor .white q invert = invert := by
  cases invert <;> rfl

theorem bitFor_grey (q : BufferPixel) (invert : Bool) :
    bitFor .grey q invert = (decide ((q.run + q.pos) % 2 = 0) ^^ invert) := by
  by_cases heven : (q.run + q.pos) % 2 = 0 <;> cases invert <;> simp [bitFor, resolve, effectiveWhite, heven]

/-! ## Plots in one colour -/

@[simp] theorem State.plotAll_params (s : State) (ds : List Dot) : (s.plotAll ds).params = s.params := by
  rw [State.plotAll_eq, State.setCur_params]

@[simp] theorem State.plotAll_orient (s : State) (ds : List Dot) : (s.plotAll ds).orient = s.orient := by
  rw [State.plotAll_eq, State.setCur_orient]

theorem State.plotAll_paint_curPixel {s : State} {c : Colour} {ps : List (Int × Int)} {q : BufferPixel}
    (hq : q.inside s.params) :
    (s.plotAll (paint c ps)).curPixel q =
      if (∃ p ∈ ps, mapPixel s.params s.orient p.1 p.2 = some q) then bitFor c q s.invert else s.curPixel q := by
  rw [State.curPixel, State.plotAll_params]
  exact State.plotAll_paint_curBit hq

/-- Plotting the positions of a list in one colour draws them, bit for bit. -/
theorem drawn_plotAll_paint {ps : List (Int × Int)} {S : Int → Int → Prop} (hS : ∀ x y, S x y ↔ (x, y) ∈ ps)
    (s : State) (c : Colour) : Claims.Drawn s (s.plotAll (paint c ps)) c S := by
  have kept : ∀ a : BitAddress, (∀ x y q, S x y → mapPixel s.params s.orient x y = some q → a ≠ addr s.params q) →
      (s.plotAll (paint c ps)).curBit a = s.curBit a := by
    refine fun a ha => State.plotAll_curBit_of_missed fun d hd q hq => ?_
    obtain ⟨p, hp, rfl⟩ := List.mem_map.1 hd
    exact ha p.1 p.2 q ((hS _ _).2 hp) hq
  refine ⟨State.plotAll_eq s _, fun x y q hxy hmap => ?plotted, kept, fun i hi => ?byte⟩
  case plotted =>
    rw [State.plotAll_paint_curPixel (mapPixel_inside hmap).1, if_pos ⟨(x, y), (hS x y).1 hxy, hmap⟩]
  case byte =>
    refine State.readCur_of_curBit fun b => kept ⟨i, b⟩ fun x y q hxy hmap heq => hi x y q hxy hmap ?_
    rw [← heq]

theorem exec_point_eq (x y : Word) (c : Colour) (s : State) :
    exec (.point x y c) s = .next (s.plotAll (paint c [(x.toInt, y.toInt)])) := rfl

/-- Settles O36: a point is a sequence of one plot. -/
theorem pointPlotsItsPixel : Obligations.PointPlotsItsPixel := by
  refine ⟨fun x y c s => ⟨⟨_, exec_point_eq x y c s, ?drawn⟩, ?outside, fun q hmap => ⟨bitFor_black q _, bitFor_white q _,
    bitFor_grey q _, mapPixel_run_add_pos hmap⟩, ?header⟩, ?reserved⟩
  case drawn => exact drawn_plotAll_paint (fun a b => by rw [List.mem_singleton, Prod.mk.injEq]) s c
  case outside => exact fun hmap => congrArg _ (State.plot_of_unmapped (d := ⟨x.toInt, y.toInt, c⟩) hmap)
  case header => exact congrArg (fun w => [w, x, y]) (headerWord_colourField 0x21 c)
  case reserved => exact reservedFaults_of_row (by decide) legalColour_of_admits

/-- Settles O43, plot by plot: one that is left out changed nothing. -/
theorem clippingIsExact : Obligations.ClippingIsExact := by
  intro s ds
  induction ds generalizing s with
  | nil => rfl
  | cons d ds ih =>
    have hrest := ih (s.plot d)
    rw [State.plot_eq, State.setCur_params, State.setCur_orient, ← State.plot_eq] at hrest
    rw [State.plotAll_cons, hrest, List.filter_cons]
    split
    case isTrue => rfl
    case isFalse hout =>
      rw [decide_eq_true_eq, ← mapPixel_isSome_iff, ← Option.isSome_iff_exists, Option.not_isSome_iff_eq_none] at hout
      rw [State.plot_of_unmapped hout]

/-- Settles O44, bit by bit: the bit of a pixel depends on which positions there are, and a bit of no pixel is kept. -/
theorem plotOrderDoesNotShow : Obligations.PlotOrderDoesNotShow := by
  refine fun s c ps ps' hmem k => State.readCur_of_curBit fun b => ?_
  by_cases hpixel : ∃ q : BufferPixel, q.inside s.params ∧ ⟨k, b⟩ = addr s.params q
  · obtain ⟨q, hq, ha⟩ := hpixel
    simp only [ha, State.plotAll_paint_curBit hq, hmem]
  · have hpad : ∀ q : BufferPixel, q.inside s.params → ⟨k, b⟩ ≠ addr s.params q := fun q hq ha => hpixel ⟨q, hq, ha⟩
    rw [State.plotAll_curBit_of_no_pixel hpad, State.plotAll_curBit_of_no_pixel hpad]

/-! ## What `CLEAR` leaves -/

theorem clearByte_eq_clearValue (c : Colour) (invert : Bool) (r : Nat) :
    clearByte c invert r = Claims.clearValue c invert r := by
  cases c with
  | black | white => cases invert <;> simp [clearByte, clearPattern, Claims.clearValue]
  | grey => by_cases heven : r % 2 = 0 <;> cases invert <;> simp [clearByte, clearPattern, Claims.clearValue, heven]

/-- Settles O39: index `r * BSH + k` lies in run `r`, and beyond the plane nothing is listed before or after. -/
theorem clearFillsEveryByte : Obligations.ClearFillsEveryByte := by
  refine ⟨fun c s hs => ⟨⟨_, rfl, rfl, fun r k hr hk => ?inside, fun i hi => ?outside⟩, ?header⟩, ?reserved⟩
  case inside =>
    obtain ⟨hlt, hrun⟩ := Params.byte_of_run hr hk
    rw [State.readCur_fill, if_pos hlt, hrun, clearByte_eq_clearValue]
  case outside => rw [State.readCur_fill, if_neg (Nat.not_lt.2 hi), State.readCur_outside hs.curInside hi]
  case header => exact congrArg (fun w => [w]) (headerWord_colourField 0x20 c)
  case reserved => exact reservedFaults_of_row (by decide) legalColour_of_admits

/-- The bits of the fill bytes, from the most significant bit on. -/
theorem fillByte_bits : ∀ k < 8, (0xFF#8).getLsbD (7 - k) = true ∧ (0x00#8).getLsbD (7 - k) = false ∧
    (0xAA#8).getLsbD (7 - k) = decide (k % 2 = 0) ∧ (0x55#8).getLsbD (7 - k) = decide (k % 2 = 1) := by
  decide

/-- The fill byte of a run holds, for each pixel of the run, the bit that a plot stores there. -/
theorem clearValue_bit (c : Colour) (invert : Bool) (q : BufferPixel) :
    (Claims.clearValue c invert q.run).getLsbD (7 - q.pos % 8) = bitFor c q invert := by
  obtain ⟨hones, hzeros, heven, hodd⟩ := fillByte_bits (q.pos % 8) (Nat.mod_lt _ (by decide))
  cases c with
  | black => rw [bitFor_black]; cases invert <;> assumption
  | white => rw [bitFor_white]; cases invert <;> assumption
  | grey =>
    rw [bitFor_grey, Bool.eq_iff_iff]
    by_cases hrun : q.run % 2 = 0 <;> cases invert <;> 
      simp [Claims.clearValue, hrun, heven, hodd] <;> omega

/-- After `CLEAR c` the bit of every pixel is that of R144. -/
theorem exec_clear_curPixel {c : Colour} {s t : State} (h : exec (.clear c) s = .next t) {q : BufferPixel}
    (hq : q.inside s.params) : t.curPixel q = bitFor c q s.invert := by
  cases h
  have hbyte : (s.setCur (Memory.fill s.params.planeBytes fun i => clearByte c s.invert (i / s.params.bsh))).readCur
      (addr s.params q).idx = Claims.clearValue c s.invert q.run := by
    rw [State.readCur_fill, if_pos (addr_idx_lt hq), (addr_idx_div hq.2).1, clearByte_eq_clearValue]
  exact (congrArg (BitVec.getLsbD · (7 - q.pos % 8)) hbyte).trans (clearValue_bit c s.invert q)

/-- Settles O40: each pixel has a position in the whole logical rectangle, and both ways it gets the bit of R144. -/
theorem clearLaw : Obligations.ClearLaw := by
  intro c s t h q hrun hpos
  have hcleared := exec_clear_curPixel h (q := q) ⟨hrun, hpos⟩
  refine ⟨hcleared, ?_⟩
  rintro o u rfl
  obtain ⟨p, hmap⟩ := exists_mapPixel_eq (p := s.params) (q := q) ⟨hrun, hpos⟩ o
  obtain ⟨-, hx, hx', hy, hy'⟩ := mapPixel_inside hmap
  have hp : p ∈ fillRectPoints 0 0 (s.params.sizeX o - 1) (s.params.sizeY o - 1) := by
    rw [mem_fillRectPoints]
    omega
  rw [hcleared, State.plotAll_paint_curPixel (s := { s with orient := o }) ⟨hrun, hpos⟩, if_pos ⟨p, hp, hmap⟩]

/-! ## Reading a pixel back -/

/-- What reading back a pixel written in colour `c` under `invert` answers, as R148 and R152 have it. -/
def writtenWord (c : Colour) (q : BufferPixel) (invert : Bool) : Word :=
  match c with
  | .black => if invert then 0x0001 else 0x0000
  | .white => if invert then 0x0000 else 0x0001
  | .grey => if decide ((q.run + q.pos) % 2 = 0) = invert then 0x0001 else 0x0000

theorem writtenWord_eq (c : Colour) (q : BufferPixel) (invert : Bool) :
    writtenWord c q invert = if bitFor c q invert then 0x0000 else 0x0001 := by
  cases c with
  | black => rw [bitFor_black]; cases invert <;> rfl
  | white => rw [bitFor_white]; rfl
  | grey => by_cases heven : (q.run + q.pos) % 2 = 0 <;> cases invert <;> simp [writtenWord, bitFor_grey, heven]

section
variable {x y : Word} {s : State}

theorem exec_rdpix_of_unmapped (hmap : mapPixel s.params s.orient x.toInt y.toInt = none) :
    exec (.rdpix x y) s = .next (s.pushRsp 0xFFFF) := by
  simp only [exec, execRdpix, State.pixelWord, sext16, hmap]

variable {q : BufferPixel} (hmap : mapPixel s.params s.orient x.toInt y.toInt = some q)
include hmap

theorem exec_rdpix_of_mapped : exec (.rdpix x y) s = .next (s.pushRsp (if s.curPixel q then 0x0000 else 0x0001)) := by
  simp only [exec, execRdpix, State.pixelWord, sext16, hmap]

/-- A pixel that holds the bit of R144 is read back as the colour and the `CR.INVERT` it was written with say. -/
theorem exec_rdpix_of_bitFor {c : Colour} {invert : Bool} (hbit : s.curPixel q = bitFor c q invert) :
    exec (.rdpix x y) s = .next (s.pushRsp (writtenWord c q invert)) := by
  rw [exec_rdpix_of_mapped hmap, hbit, writtenWord_eq]

end

/-- Settles O37. -/
theorem rdpixReportsThePhysicalBit : Obligations.RdpixReportsThePhysicalBit :=
  ⟨fun _ _ _ => ⟨exec_rdpix_of_unmapped, fun _ => exec_rdpix_of_mapped, rfl⟩,
    reservedFaults_of_row (by decide) legalNone_of_admits⟩

/-- Settles O38: the point's pixel holds the bit of R144 under the `CR.INVERT` at the `POINT`, and a later `CR.INVERT`
is no part of what `RDPIX` reads. -/
theorem writeThenReadLaw : Obligations.WriteThenReadLaw := by
  intro x y c b s t q hmap h
  rw [exec_point_eq] at h
  obtain rfl := Host.Outcome.next.inj h
  have hbit : (s.plotAll (paint c [(x.toInt, y.toInt)])).curPixel q = bitFor c q s.invert := by
    rw [State.plotAll_paint_curPixel (mapPixel_inside hmap).1, if_pos ⟨_, List.mem_singleton_self _, hmap⟩]
  rw [← State.plotAll_params s, ← State.plotAll_orient s] at hmap
  exact exec_rdpix_of_bitFor (s := { s.plotAll _ with invert := b }) hmap hbit

/-- Settles O41: `CLEAR` leaves the parameters and the orientation, so that the position maps to the same pixel. -/
theorem clearThenReadLaw : Obligations.ClearThenReadLaw := by
  intro c s t x y q h hmap
  have hbit := exec_clear_curPixel h (mapPixel_inside hmap).1
  have hmap' : mapPixel t.params t.orient x.toInt y.toInt = some q := by cases h; exact hmap
  exact exec_rdpix_of_bitFor hmap' hbit

end Sys2Proof.Machine
end

section
/-! The RasterOps commands (spec/42_raster_ops.md): each plots the positions of its primitive in one colour; the closed
form of the line; the rectangle with either pen; the midpoint iteration and the circle with either pen. -/

namespace Sys2Proof.Machine

/-! ## Commands that plot one list of positions -/

/-- A command that plots the positions of a list in one colour answers a state in which they are drawn. -/
theorem exists_drawn_of_exec {i : Instr} {s : State} {c : Colour} {ps : List (Int × Int)} {S : Int → Int → Prop}
    (h : exec i s = .next (s.plotAll (paint c ps))) (hS : ∀ a b, S a b ↔ (a, b) ∈ ps) :
    ∃ t, exec i s = .next t ∧ Claims.Drawn s t c S :=
  ⟨_, h, drawn_plotAll_paint hS s c⟩

section
variable (x1 y1 x2 y2 x0 y0 dx dy r : Word) (c : Colour) (s : State)

theorem exec_line_eq : exec (.line x1 y1 x2 y2 c) s =
    .next (s.plotAll (paint c (linePoints x1.toInt y1.toInt x2.toInt y2.toInt))) := rfl

theorem exec_dline_eq : exec (.dline x0 y0 dx dy c) s =
    .next (s.plotAll (paint c
      (linePoints x0.toInt y0.toInt (x0.toInt + dx.toInt - 1) (y0.toInt + dy.toInt - 1)))) := rfl

theorem exec_rect_eq : exec (.rect x1 y1 x2 y2 c) s =
    .next (s.plotAll (paint c (rectPoints s.pen x1.toInt y1.toInt x2.toInt y2.toInt))) := rfl

theorem exec_drect_eq : exec (.drect x0 y0 dx dy c) s =
    .next (s.plotAll (paint c
      (rectPoints s.pen x0.toInt y0.toInt (x0.toInt + dx.toInt - 1) (y0.toInt + dy.toInt - 1)))) := rfl

theorem exec_circle_eq : exec (.circle x0 y0 r c) s =
    .next (s.plotAll (paint c (circlePoints s.params.circleFill s.pen x0.toInt y0.toInt r.toNat))) := rfl

end

/-! ## Lines -/

/-- The degenerate case of R170. -/
theorem linePoints_self (x y : Int) : linePoints x y x y = [(x, y)] := by simp [linePoints]

/-- The vertical case of R170. -/
theorem linePoints_vertical (x : Int) {y1 y2 : Int} (hy : y1 ≠ y2) :
    linePoints x y1 x y2 = (span y1 y2).map fun y => (x, y) := by simp [linePoints, hy]

/-- The horizontal case of R170. -/
theorem linePoints_horizontal (y : Int) {x1 x2 : Int} (hx : x1 ≠ x2) :
    linePoints x1 y x2 y = (span x1 x2).map fun x => (x, y) := by simp [linePoints, hx]

/-- The general case of R170. -/
theorem linePoints_general {x1 y1 x2 y2 : Int} (hx : x1 ≠ x2) (hy : y1 ≠ y2) :
    linePoints x1 y1 x2 y2 =
      if |x2 - x1| < |y2 - y1| then orderedLine true y1 x1 y2 x2 else orderedLine false x1 y1 x2 y2 := by
  simp [linePoints, hx, hy, generalLine]

/-- Settles O45. -/
theorem linePlotsItsPositions : Obligations.LinePlotsItsPositions := by
  refine ⟨fun x1 y1 x2 y2 c s => ⟨?drawn, ?header⟩, ?reserved⟩
  case drawn => exact exists_drawn_of_exec (exec_line_eq x1 y1 x2 y2 c s) fun _ _ => Iff.rfl
  case header => exact congrArg (fun w => [w, x1, y1, x2, y2]) (headerWord_colourField 0x22 c)
  case reserved => exact reservedFaults_of_row (by decide) legalColour_of_admits

/-- Settles O46: both plot one position once. -/
theorem degenerateLineIsThePoint : Obligations.DegenerateLineIsThePoint := by
  refine ⟨fun x y c s => ?plot, fun x y c s => ?command⟩
  case plot => rw [linePoints_self]; rfl
  case command => rw [exec_line_eq, linePoints_self, exec_point_eq]

/-- Settles O47. -/
theorem axisParallelLinePositions : Obligations.AxisParallelLinePositions := by
  refine fun x1 y1 x2 y2 => ⟨fun hy => ⟨?vertical, ?height⟩, fun hx => ⟨?horizontal, ?width⟩⟩
  case vertical => exact fun a b => mem_linePoints_vertical x1 y1 y2 (a, b)
  case height => rw [linePoints_vertical x1 hy, List.length_map, length_span]
  case horizontal => exact fun a b => mem_linePoints_horizontal y1 x1 x2 (a, b)
  case width => rw [linePoints_horizontal y1 hx, List.length_map, length_span]

/-- Settles O50: the far end of R175 is exact. -/
theorem dlineDrawsToTheFarEnd : Obligations.DlineDrawsToTheFarEnd := by
  refine ⟨fun x0 y0 dx dy c s => ⟨?drawn, ?header⟩, ?reserved⟩
  case drawn => exact exists_drawn_of_exec (exec_dline_eq x0 y0 dx dy c s) fun _ _ => Iff.rfl
  case header => exact congrArg (fun w => [w, x0, y0, dx, dy]) (headerWord_colourField 0x23 c)
  case reserved => exact reservedFaults_of_row (by decide) legalColour_of_admits

/-! ## The general line between ordered ends (R173) -/

theorem orderedLine_of_lt (steep : Bool) {u1 u2 : Int} (hu : u1 < u2) (v1 v2 : Int) :
    orderedLine steep u1 v1 u2 v2 =
      bresenham steep (u2 - u1) |v2 - v1| (if v1 < v2 then 1 else -1) (u2 - u1 + 1).toNat u1 v1 ((u2 - u1) / 2) :=
  if_neg hu.not_gt

/-- The ends are ordered on the iteration axis before anything else, so their order does not show. -/
theorem orderedLine_comm (steep : Bool) {u1 u2 : Int} (hu : u1 ≠ u2) (v1 v2 : Int) :
    orderedLine steep u2 v2 u1 v1 = orderedLine steep u1 v1 u2 v2 := by
  rcases hu.lt_or_gt with hlt | hlt
  · rw [orderedLine_of_lt steep hlt]; exact if_pos hlt
  · rw [orderedLine_of_lt steep hlt]; exact (if_pos hlt).symm

theorem linePointBetween_of_lt {u1 u2 : Int} (hu : u1 < u2) (v1 v2 : Int) (k : Nat) :
    Claims.linePointBetween u1 v1 u2 v2 k = Claims.linePointAt u1 v1 u2 v2 k :=
  if_neg hu.not_gt

theorem linePointBetween_comm {u1 u2 : Int} (hu : u1 ≠ u2) (v1 v2 : Int) (k : Nat) :
    Claims.linePointBetween u2 v2 u1 v1 k = Claims.linePointBetween u1 v1 u2 v2 k := by
  rcases hu.lt_or_gt with hlt | hlt
  · rw [linePointBetween_of_lt hlt]; exact if_pos hlt
  · rw [linePointBetween_of_lt hlt]; exact (if_pos hlt).symm

/-- The closed form's other axis moves by the steps of the loop that starts with error term `(u2 - u1) / 2`. -/
theorem linePointAt_eq (u1 v1 u2 v2 : Int) (k : Nat) : Claims.linePointAt u1 v1 u2 v2 k =
    (u1 + k, v1 + (if v1 < v2 then 1 else -1) * minorSteps (u2 - u1) |v2 - v1| ((u2 - u1) / 2) k) := rfl

theorem length_orderedLine (steep : Bool) {u1 u2 : Int} (hu : u1 ≠ u2) (v1 v2 : Int) :
    ((orderedLine steep u1 v1 u2 v2).length : Int) = |u2 - u1| + 1 := by
  wlog hlt : u1 < u2 generalizing u1 v1 u2 v2
  · rw [orderedLine_comm steep hu.symm, abs_sub_comm]
    exact this hu.symm v2 v1 (hu.lt_or_gt.resolve_left hlt)
  rw [orderedLine_of_lt steep hlt, length_bresenham, abs_of_pos (by omega)]
  omega

/-- The positions of the ordered line in closed form, the axes swapped back when it is steep. -/
theorem orderedLine_getElem? (steep : Bool) {u1 v1 u2 v2 : Int} (hu : u1 ≠ u2) (hv : |v2 - v1| ≤ |u2 - u1|) {k : Nat}
    (hk : (k : Int) ≤ |u2 - u1|) : (orderedLine steep u1 v1 u2 v2)[k]? =
      some (if steep then (Claims.linePointBetween u1 v1 u2 v2 k).swap else Claims.linePointBetween u1 v1 u2 v2 k) := by
  wlog hlt : u1 < u2 generalizing u1 v1 u2 v2
  · rw [orderedLine_comm steep hu.symm, linePointBetween_comm hu.symm]
    rw [abs_sub_comm v2, abs_sub_comm u2] at hv
    rw [abs_sub_comm u2] at hk
    exact this hu.symm hv hk (hu.lt_or_gt.resolve_left hlt)
  have hdx : |u2 - u1| = u2 - u1 := abs_of_pos (by omega)
  rw [hdx] at hv hk
  rw [orderedLine_of_lt steep hlt, linePointBetween_of_lt hlt, linePointAt_eq,
    bresenham_getElem? (abs_nonneg _) hv (by omega) _ _ (by omega) (by omega)]
  rfl

/-- Settles O48: the loop's closed form, on the axes as they are or swapped. -/
theorem generalLineClosedForm : Obligations.GeneralLineClosedForm := by
  refine fun x1 y1 x2 y2 hx hy => ⟨fun hflat => ?flat, fun hsteep => ?steep⟩
  case flat =>
    rw [linePoints_general hx hy, if_neg hflat.not_gt]
    exact ⟨length_orderedLine false hx y1 y2, fun k hk => orderedLine_getElem? false hx hflat hk⟩
  case steep =>
    rw [linePoints_general hx hy, if_pos hsteep]
    exact ⟨length_orderedLine true hy x1 x2, fun k hk => orderedLine_getElem? true hy hsteep.le hk⟩

/-! ## The ends of a line -/

/-- After as many turns as the iteration axis is long, the other axis has moved its whole length. -/
theorem minorSteps_last {dx : Int} (hdx : 0 < dx) (dy : Int) : minorSteps dx dy (dx / 2) dx = dy := by
  have hsum : dx * dy - dx / 2 + dx - 1 = (dx - dx / 2 - 1) + dx * dy := by ring
  rw [minorSteps, hsum, Int.add_mul_ediv_left _ _ hdx.ne', Int.ediv_eq_zero_of_lt (by omega) (by omega), zero_add]

theorem step_mul_abs_sub (v1 v2 : Int) : (if v1 < v2 then 1 else -1) * |v2 - v1| = v2 - v1 := by
  split
  · rw [abs_of_pos (by omega), one_mul]
  · rw [abs_of_nonpos (by omega), neg_one_mul, neg_neg]

theorem linePointAt_zero {u1 u2 : Int} (hu : u1 < u2) (v1 v2 : Int) :
    Claims.linePointAt u1 v1 u2 v2 0 = (u1, v1) := by
  rw [linePointAt_eq, Nat.cast_zero, minorSteps_zero (by omega) (by omega), mul_zero, add_zero, add_zero]

theorem linePointAt_last {u1 u2 : Int} (hu : u1 < u2) (v1 v2 : Int) :
    Claims.linePointAt u1 v1 u2 v2 (u2 - u1).toNat = (u2, v2) := by
  rw [linePointAt_eq, Int.toNat_of_nonneg (by omega), minorSteps_last (by omega), step_mul_abs_sub,
    add_sub_cancel, add_sub_cancel]

/-- The first end is the first position or the last, as the ends are ordered. -/
theorem exists_linePointBetween_eq {u1 u2 : Int} (hu : u1 ≠ u2) (v1 v2 : Int) :
    ∃ k : Nat, (k : Int) ≤ |u2 - u1| ∧ Claims.linePointBetween u1 v1 u2 v2 k = (u1, v1) := by
  rcases hu.lt_or_gt with hlt | hlt
  · exact ⟨0, abs_nonneg _, by rw [linePointBetween_of_lt hlt, linePointAt_zero hlt]⟩
  · refine ⟨(u1 - u2).toNat, ?_, by rw [linePointBetween_comm hu.symm, linePointBetween_of_lt hlt, linePointAt_last hlt]⟩
    rw [abs_sub_comm, abs_of_pos (by omega), Int.toNat_of_nonneg (by omega)]

theorem mem_orderedLine_end (steep : Bool) {u1 v1 u2 v2 : Int} (hu : u1 ≠ u2) (hv : |v2 - v1| ≤ |u2 - u1|) :
    (if steep then (v1, u1) else (u1, v1)) ∈ orderedLine steep u1 v1 u2 v2 := by
  obtain ⟨k, hk, hend⟩ := exists_linePointBetween_eq hu v1 v2
  have hget := orderedLine_getElem? steep hu hv hk
  rw [hend] at hget
  exact List.mem_of_getElem? hget

theorem span_comm (a b : Int) : span a b = span b a := by rw [span, span, min_comm, max_comm]

/-- The four cases of R170: what holds of each kind of line holds of every line. -/
theorem line_cases {P : Int → Int → Int → Int → Prop} (self : ∀ x y, P x y x y)
    (vertical : ∀ x y1 y2, y1 ≠ y2 → P x y1 x y2) (horizontal : ∀ y x1 x2, x1 ≠ x2 → P x1 y x2 y)
    (general : ∀ x1 y1 x2 y2, x1 ≠ x2 → y1 ≠ y2 → P x1 y1 x2 y2) (x1 y1 x2 y2 : Int) : P x1 y1 x2 y2 := by
  by_cases hx : x1 = x2 <;> by_cases hy : y1 = y2
  · subst hx hy; exact self x1 y1
  · subst hx; exact vertical x1 y1 y2 hy
  · subst hy; exact horizontal y1 x1 x2 hx
  · exact general x1 y1 x2 y2 hx hy

/-- The line from the other end plots the same positions in the same order. -/
theorem linePoints_comm (x1 y1 x2 y2 : Int) : linePoints x2 y2 x1 y1 = linePoints x1 y1 x2 y2 := by
  induction x1, y1, x2, y2 using line_cases with
  | self x y => rfl
  | vertical x y1 y2 hy => rw [linePoints_vertical x hy, linePoints_vertical x hy.symm, span_comm]
  | horizontal y x1 x2 hx => rw [linePoints_horizontal y hx, linePoints_horizontal y hx.symm, span_comm]
  | general x1 y1 x2 y2 hx hy =>
    rw [linePoints_general hx hy, linePoints_general hx.symm hy.symm, orderedLine_comm true hy,
      orderedLine_comm false hx, abs_sub_comm x1, abs_sub_comm y1]

theorem length_linePoints (x1 y1 x2 y2 : Int) :
    ((linePoints x1 y1 x2 y2).length : Int) = max |x2 - x1| |y2 - y1| + 1 := by
  induction x1, y1, x2, y2 using line_cases with
  | self x y => simp [linePoints_self]
  | vertical x y1 y2 hy => simp [linePoints_vertical x hy, length_span]
  | horizontal y x1 x2 hx => simp [linePoints_horizontal y hx, length_span]
  | general x1 y1 x2 y2 hx hy =>
    rw [linePoints_general hx hy]
    split
    case isTrue hsteep => rw [length_orderedLine true hy, max_eq_right hsteep.le]
    case isFalse hflat => rw [length_orderedLine false hx, max_eq_left (not_lt.1 hflat)]

theorem mem_linePoints_end (x1 y1 x2 y2 : Int) : (x1, y1) ∈ linePoints x1 y1 x2 y2 := by
  induction x1, y1, x2, y2 using line_cases with
  | self x y => simp [linePoints_self]
  | vertical x y1 y2 hy => simp [mem_linePoints_vertical]
  | horizontal y x1 x2 hx => simp [mem_linePoints_horizontal]
  | general x1 y1 x2 y2 hx hy =>
    rw [linePoints_general hx hy]
    split
    case isTrue hsteep => exact mem_orderedLine_end true hy hsteep.le
    case isFalse hflat => exact mem_orderedLine_end false hx (not_lt.1 hflat)

/-- Settles O49: the second end is the first end of the line from the other end. -/
theorem lineJoinsItsEnds : Obligations.LineJoinsItsEnds := by
  refine fun x1 y1 x2 y2 => ⟨length_linePoints x1 y1 x2 y2, mem_linePoints_end x1 y1 x2 y2, ?second, fun p => ?same⟩
  case second => rw [← linePoints_comm]; exact mem_linePoints_end x2 y2 x1 y1
  case same => rw [linePoints_comm]

/-! ## Rectangles -/

/-- The rectangle with the pen: its range, and with the outline pen only the border (R176 to R178). -/
theorem mem_rectPoints (pen : Bool) (x1 y1 x2 y2 a b : Int) :
    (a, b) ∈ rectPoints pen x1 y1 x2 y2 ↔
      (min x1 x2 ≤ a ∧ a ≤ max x1 x2) ∧ (min y1 y2 ≤ b ∧ b ≤ max y1 y2) ∧
        (pen = true ∨ a = x1 ∨ a = x2 ∨ b = y1 ∨ b = y2) := by
  cases pen with
  | true => simp [rectPoints]
  | false => simp [rectPoints, mem_drawRectPoints, and_assoc]

/-- Settles O51. -/
theorem rectFillsOrOutlines : Obligations.RectFillsOrOutlines := by
  refine ⟨fun x1 y1 x2 y2 c s => ⟨?drawn, ?header⟩, ?reserved⟩
  case drawn => exact exists_drawn_of_exec (exec_rect_eq x1 y1 x2 y2 c s) fun a b => (mem_rectPoints ..).symm
  case header => exact congrArg (fun w => [w, x1, y1, x2, y2]) (headerWord_colourField 0x24 c)
  case reserved => exact reservedFaults_of_row (by decide) legalColour_of_admits

/-- Settles O52: the far corner of R179 is exact. -/
theorem drectFillsOrOutlines : Obligations.DrectFillsOrOutlines := by
  refine ⟨fun x0 y0 dx dy c s => ⟨?drawn, ?header⟩, ?reserved⟩
  case drawn => exact exists_drawn_of_exec (exec_drect_eq x0 y0 dx dy c s) fun a b => (mem_rectPoints ..).symm
  case header => exact congrArg (fun w => [w, x0, y0, dx, dy]) (headerWord_colourField 0x25 c)
  case reserved => exact reservedFaults_of_row (by decide) legalColour_of_admits

/-! ## The midpoint iteration (R180) -/

/-- The pair emitted at turn `j`: the loop still ran after `j` turns, and the pair holds the values of the next. -/
theorem midpointLoop_getElem? {k j : Nat} {m : Midpoint} {p : Int × Int} (h : (midpointLoop k m)[j]? = some p) :
    (midpointNext^[j] m).x < (midpointNext^[j] m).y ∧
      p = ((midpointNext (midpointNext^[j] m)).x, (midpointNext (midpointNext^[j] m)).y) := by
  induction k generalizing m j with
  | zero => simp [midpointLoop] at h
  | succ k ih =>
    rw [midpointLoop] at h
    split at h
    case isFalse => simp at h
    case isTrue hlt =>
      cases j with
      | zero => exact ⟨hlt, (Option.some.inj h).symm⟩
      | succ j => exact ih (m := midpointNext m) h

/-- The loop ends by its own test where `k` turns suffice for `x` to reach `y` (log entry 18). -/
theorem midpointLoop_getLastD_le {k : Nat} {m : Midpoint} (hk : m.y - m.x ≤ k) :
    ((midpointLoop k m).getLastD (m.x, m.y)).2 ≤ ((midpointLoop k m).getLastD (m.x, m.y)).1 := by
  induction k generalizing m with
  | zero => simpa [midpointLoop] using hk
  | succ k ih =>
    rw [midpointLoop]
    split
    case isFalse hge => exact not_lt.1 hge
    case isTrue =>
      have hx := midpointNext_x m
      have hy := midpointNext_y m
      rw [List.getLastD_cons]
      exact ih (by omega)

theorem midpointEnd_le (r : Nat) : (midpointEnd r).2 ≤ (midpointEnd r).1 :=
  midpointLoop_getLastD_le (m := midpointStart r) (by simp [midpointStart])

/-- The first pair follows from the start `(0, r)`. -/
theorem midpointPairs_head {r : Nat} {p : Int × Int} (h : (midpointPairs r)[0]? = some p) : p.2 = r ∨ p.2 = r - 1 := by
  obtain ⟨-, rfl⟩ := midpointLoop_getElem? h
  exact midpointNext_y (midpointStart r)

/-- A pair follows another where the loop's test held of that one. -/
theorem midpointPairs_consecutive {r j : Nat} {p p' : Int × Int} (h : (midpointPairs r)[j]? = some p)
    (h' : (midpointPairs r)[j + 1]? = some p') : p.1 < p.2 ∧ (p'.2 = p.2 ∨ p'.2 = p.2 - 1) := by
  obtain ⟨-, rfl⟩ := midpointLoop_getElem? h
  obtain ⟨hlt, rfl⟩ := midpointLoop_getElem? h'
  rw [Function.iterate_succ_apply'] at hlt ⊢
  exact ⟨hlt, midpointNext_y _⟩

/-- Settles O53. -/
theorem midpointIteration : Obligations.MidpointIteration := by
  refine ⟨fun r => ⟨length_midpointLoop_le r _, fun j p hp => ?x, fun p => midpointPairs_head,
    fun j p p' => midpointPairs_consecutive, midpointEnd_le r⟩, ?table⟩
  case x => simpa [midpointStart] using midpointLoop_getElem?_x hp
  case table => decide

/-! ## The outline circle (R181) -/

theorem mem_eightPoints (x0 y0 x y a b : Int) :
    (a, b) ∈ eightPoints x0 y0 x y ↔
      (a = x0 + x ∨ a = x0 - x) ∧ (b = y0 + y ∨ b = y0 - y) ∨ (a = x0 + y ∨ a = x0 - y) ∧ (b = y0 + x ∨ b = y0 - x) := by
  simp only [eightPoints, List.mem_cons, List.not_mem_nil, Prod.mk.injEq]
  tauto

theorem mem_circleOutlinePoints (x0 y0 : Int) (r : Nat) (a b : Int) :
    (a, b) ∈ circleOutlinePoints x0 y0 r ↔
      (a, b) = (x0, y0 + r) ∨ (a, b) = (x0, y0 - r) ∨ (a, b) = (x0 + r, y0) ∨ (a, b) = (x0 - r, y0) ∨
        ∃ x y, (x, y) ∈ midpointPairs r ∧
          ((a = x0 + x ∨ a = x0 - x) ∧ (b = y0 + y ∨ b = y0 - y) ∨
            (a = x0 + y ∨ a = x0 - y) ∧ (b = y0 + x ∨ b = y0 - x)) := by
  simp only [circleOutlinePoints, cardinalPoints, List.mem_append, List.mem_flatMap, Prod.exists, mem_eightPoints,
    List.mem_cons, List.not_mem_nil, or_false, or_assoc]

section
variable {x y : Int} (hx : 0 ≤ x) (hy : 0 ≤ y) (x0 y0 a b : Int)
include hx

/-- A coordinate at distance `x` from the centre's, on either side. -/
theorem add_eq_add_or_sub_iff : (x0 + a = x0 + x ∨ x0 + a = x0 - x) ↔ |a| = x := by
  rw [abs_eq hx]
  omega

theorem mem_cardinalPoints_offset :
    (x0 + a, y0 + b) ∈ cardinalPoints x0 y0 x ↔ (|a| = 0 ∧ |b| = x) ∨ (|a| = x ∧ |b| = 0) := by
  simp only [cardinalPoints, List.mem_cons, List.not_mem_nil, Prod.mk.injEq, sub_eq_add_neg, add_eq_left,
    add_right_inj, abs_eq_zero, abs_eq hx]
  tauto

include hy

theorem mem_eightPoints_offset :
    (x0 + a, y0 + b) ∈ eightPoints x0 y0 x y ↔ (|a| = x ∧ |b| = y) ∨ (|a| = y ∧ |b| = x) := by
  rw [mem_eightPoints, add_eq_add_or_sub_iff hx, add_eq_add_or_sub_iff hx, add_eq_add_or_sub_iff hy,
    add_eq_add_or_sub_iff hy]

end

/-- The offsets of the outline from the centre, by their distances on the two axes. -/
theorem mem_circleOutlinePoints_offset (x0 y0 : Int) (r : Nat) (a b : Int) :
    (x0 + a, y0 + b) ∈ circleOutlinePoints x0 y0 r ↔
      ((|a| = 0 ∧ |b| = r) ∨ (|a| = r ∧ |b| = 0)) ∨
        ∃ p ∈ midpointPairs r, (|a| = p.1 ∧ |b| = p.2) ∨ (|a| = p.2 ∧ |b| = p.1) := by
  rw [circleOutlinePoints, List.mem_append, mem_cardinalPoints_offset (Int.natCast_nonneg r), List.mem_flatMap]
  refine or_congr_right (exists_congr fun p => and_congr_right fun hp => ?_)
  obtain ⟨hx, -, hy, -⟩ := midpointPairs_bounds hp
  exact mem_eightPoints_offset (by omega) hy x0 y0 a b

/-- The reflections in the two axes and in the diagonal through the centre keep the outline. -/
theorem circleOutlinePoints_symmetric {x0 y0 a b : Int} {r : Nat} (h : (x0 + a, y0 + b) ∈ circleOutlinePoints x0 y0 r) :
    (x0 - a, y0 + b) ∈ circleOutlinePoints x0 y0 r ∧ (x0 + a, y0 - b) ∈ circleOutlinePoints x0 y0 r ∧
      (x0 + b, y0 + a) ∈ circleOutlinePoints x0 y0 r := by
  rw [sub_eq_add_neg, sub_eq_add_neg]
  simp only [mem_circleOutlinePoints_offset, abs_neg] at h ⊢
  refine ⟨h, h, h.imp ?_ ?_⟩
  · exact fun hcardinal => hcardinal.symm.imp And.symm And.symm
  · exact fun ⟨p, hp, hpair⟩ => ⟨p, hp, hpair.symm.imp And.symm And.symm⟩

/-- The `x` of an emitted pair is at least 1, so that only the cardinal points of radius 0 are the centre. -/
theorem centre_mem_circleOutlinePoints (x0 y0 : Int) (r : Nat) : (x0, y0) ∈ circleOutlinePoints x0 y0 r ↔ r = 0 := by
  have hoffset := mem_circleOutlinePoints_offset x0 y0 r 0 0
  rw [add_zero, add_zero, abs_zero] at hoffset
  rw [hoffset]
  constructor
  · rintro ((⟨-, hr⟩ | ⟨hr, -⟩) | ⟨p, hp, hzero⟩)
    · omega
    · omega
    · have hbounds := midpointPairs_bounds hp
      omega
  · rintro rfl
    exact .inl (.inl ⟨rfl, rfl⟩)

/-- Settles O54. -/
theorem outlineCirclePlotsItsPoints : Obligations.OutlineCirclePlotsItsPoints := by
  refine ⟨fun x0 y0 r c s hpen => ?drawn, fun x0 y0 r => ⟨fun a b => circleOutlinePoints_symmetric,
    centre_mem_circleOutlinePoints x0 y0 r⟩⟩
  case drawn =>
    refine exists_drawn_of_exec (exec_circle_eq x0 y0 r c s) fun a b => ?_
    rw [hpen]
    exact (mem_circleOutlinePoints ..).symm

/-! ## The solid circle (R182, R184) -/

theorem mem_spanPoints {x y : Int} (hx : 0 ≤ x) (x0 y0 a b : Int) :
    (a, b) ∈ spanPoints x0 y0 x y ↔
      ((b = y0 + y ∨ b = y0 - y) ∧ x0 - x ≤ a ∧ a ≤ x0 + x) ∨ ((a = x0 + y ∨ a = x0 - y) ∧ y0 - x ≤ b ∧ b ≤ y0 + x) := by
  simp only [spanPoints, List.mem_append, mem_linePoints_vertical, mem_linePoints_horizontal]
  omega

/-- A filled square about a centre. -/
theorem mem_fillRectPoints_centred {x y : Int} (hx : 0 ≤ x) (hy : 0 ≤ y) (x0 y0 a b : Int) :
    (a, b) ∈ fillRectPoints (x0 - x) (y0 - y) (x0 + x) (y0 + y) ↔
      (x0 - x ≤ a ∧ a ≤ x0 + x) ∧ (y0 - y ≤ b ∧ b ≤ y0 + y) := by
  rw [mem_fillRectPoints]
  omega

/-- The values when the loop ends are the start `(0, r)` or an emitted pair. -/
theorem midpointEnd_nonneg (r : Nat) : 0 ≤ (midpointEnd r).1 ∧ 0 ≤ (midpointEnd r).2 := by
  have hmem : midpointEnd r ∈ (0, (r : Int)) :: midpointPairs r := List.getLastD_mem_cons
  rcases List.mem_cons.1 hmem with hstart | hpair
  · rw [hstart]
    exact ⟨le_rfl, Int.natCast_nonneg r⟩
  · obtain ⟨hx, -, hy, -⟩ := midpointPairs_bounds hpair
    exact ⟨by omega, hy⟩

theorem mem_circleSolidPoints_terminal (x0 y0 : Int) (r : Nat) (a b : Int) :
    (a, b) ∈ circleSolidPoints .terminal x0 y0 r ↔
      (∃ x y, (x, y) ∈ midpointPairs r ∧
        (((b = y0 + y ∨ b = y0 - y) ∧ x0 - x ≤ a ∧ a ≤ x0 + x) ∨
          ((a = x0 + y ∨ a = x0 - y) ∧ y0 - x ≤ b ∧ b ≤ y0 + x))) ∨
      ((x0 - (midpointEnd r).1 ≤ a ∧ a ≤ x0 + (midpointEnd r).1) ∧
        (y0 - (midpointEnd r).2 ≤ b ∧ b ≤ y0 + (midpointEnd r).2)) := by
  obtain ⟨hx, hy⟩ := midpointEnd_nonneg r
  rw [circleSolidPoints, finalFillPoints, List.mem_append, mem_fillRectPoints_centred hx hy, List.mem_flatMap,
    Prod.exists]
  refine or_congr_left (exists₂_congr fun x y => and_congr_right fun hpair => mem_spanPoints ?_ x0 y0 a b)
  have hbounds := midpointPairs_bounds hpair
  omega

/-- Settles O55. -/
theorem solidCircleFillsItsSquare : Obligations.SolidCircleFillsItsSquare := by
  refine ⟨fun x0 y0 r c s hpen hfill => ?bounding, fun x0 y0 r c s hpen hfill => ?terminal, fun x0 y0 r c => ?header,
    ?reserved⟩
  case bounding =>
    refine exists_drawn_of_exec (exec_circle_eq x0 y0 r c s) fun a b => ?_
    rw [hpen, hfill]
    exact ((mem_circleSolidPoints_bounding ..).trans (mem_fillRectPoints_centred (by omega) (by omega) ..)).symm
  case terminal =>
    refine exists_drawn_of_exec (exec_circle_eq x0 y0 r c s) fun a b => ?_
    rw [hpen, hfill]
    exact (mem_circleSolidPoints_terminal ..).symm
  case header => exact congrArg (fun w => [w, x0, y0, r]) (headerWord_colourField 0x26 c)
  case reserved => exact reservedFaults_of_row (by decide) legalColour_of_admits

end Sys2Proof.Machine
end

section
/-! Text (spec/43_text.md): the positions of one text are all different, so each keeps the colour it is plotted in; the
requests on the font port lie in the provider's domain. -/

namespace Sys2Proof.Machine

/-! ## The positions of a text are all different (R208) -/

/-- The logical position that a dot is plotted at. -/
def Dot.position (d : Dot) : Int × Int := (d.x, d.y)

/-- No two of the dots stand at one position. -/
def Scattered (ds : List Dot) : Prop := ds.Pairwise fun d e => d.position ≠ e.position

theorem scattered_iff_nodup {ds : List Dot} : Scattered ds ↔ (ds.map Dot.position).Nodup := List.pairwise_map.symm

theorem position_ne_iff {d e : Dot} : d.position ≠ e.position ↔ d.x ≠ e.x ∨ d.y ≠ e.y := by
  rw [ne_eq, Dot.position, Dot.position, Prod.mk.injEq, not_and_or]

theorem scattered_append {ds es : List Dot} : Scattered (ds ++ es) ↔
    Scattered ds ∧ Scattered es ∧ ∀ d ∈ ds, ∀ e ∈ es, d.position ≠ e.position := List.pairwise_append

/-- The dots of the turns of a loop are scattered when those of each turn are and no two turns meet. -/
theorem scattered_loop {n : Nat} {turn : Nat → List Dot} (hturn : ∀ i, Scattered (turn i))
    (hapart : ∀ i j, i < j → j < n → ∀ d ∈ turn i, ∀ e ∈ turn j, d.position ≠ e.position) :
    Scattered ((List.range n).flatMap turn) := by
  refine List.pairwise_flatMap.2 ⟨fun i _ => hturn i, ?_⟩
  exact List.pairwise_lt_range.imp_of_mem fun _ hj hij => hapart _ _ hij (List.mem_range.1 hj)

theorem scattered_bitDots {bit fill : Bool} {fg bg : Colour} {x y : Int} : Scattered (bitDots bit fill fg bg x y) := by
  cases bit <;> cases fill <;> simp [bitDots, Scattered]

theorem scattered_oneByteColumn {b0 : Byte} {fsolid : Bool} {fg bg : Colour} {x y0 : Int} :
    Scattered (oneByteColumn b0 fsolid fg bg x y0) := by
  refine scattered_loop (fun _ => scattered_bitDots) fun i j hij _ d hd e he => ?_
  rw [mem_bitDots] at hd he
  exact position_ne_iff.2 (.inr (by omega))

/-- Turn `j` of the loop plots in rows `j` and `8 + j`. -/
theorem scattered_twoByteColumn {b0 b1 : Byte} {fsolid : Bool} {fg bg : Colour} {x y0 : Int} :
    Scattered (twoByteColumn b0 b1 fsolid fg bg x y0) := by
  refine scattered_loop (fun _ => scattered_append.2 ⟨scattered_bitDots, scattered_bitDots, ?_⟩)
    fun i j hij hj d hd e he => ?_
  · intro d hd e he
    rw [mem_bitDots] at hd he
    exact position_ne_iff.2 (.inr (by omega))
  · rw [List.mem_append, mem_bitDots, mem_bitDots] at hd he
    exact position_ne_iff.2 (.inr (by omega))

section
variable {p : Params} {font : Nat} {fsolid : Bool} {fg bg : Colour} {x0 y0 : Int}

theorem scattered_columnDots {g i : Nat} {x : Int} : Scattered (columnDots p font fsolid fg bg g i x y0) := by
  rcases Nat.lt_or_ge 8 (p.metrics font).height with h | h
  · rw [columnDots_twoByte h]
    exact scattered_twoByteColumn
  · rw [columnDots_oneByte h]
    exact scattered_oneByteColumn

theorem scattered_charDots {k : Nat} {ch : Byte} : Scattered (charDots p font fsolid fg bg x0 y0 k ch) := by
  unfold charDots
  split
  · exact .nil
  · refine scattered_loop (fun _ => scattered_columnDots) fun i j hij _ d hd e he => ?_
    obtain ⟨hdx, -⟩ := columnDots_at hd
    obtain ⟨hex, -⟩ := columnDots_at he
    exact position_ne_iff.2 (.inl (by omega))

/-- The columns of the character at position `k` (R205). -/
theorem charDots_x {k : Nat} {ch : Byte} {d : Dot} (h : d ∈ charDots p font fsolid fg bg x0 y0 k ch) :
    x0 + ((p.metrics font).maxWidth * k : Nat) ≤ d.x ∧ d.x < x0 + ((p.metrics font).maxWidth * (k + 1) : Nat) := by
  obtain ⟨g, i, -, -, hi, hd⟩ := mem_charDots.1 h
  obtain ⟨hx, -⟩ := columnDots_at hd
  rw [Nat.mul_succ, hx]
  push_cast
  omega

/-- A later character stands to the right of an earlier one. -/
theorem charDots_x_lt {k l : Nat} {ch ch' : Byte} {d e : Dot} (hkl : k < l)
    (hd : d ∈ charDots p font fsolid fg bg x0 y0 k ch) (he : e ∈ charDots p font fsolid fg bg x0 y0 l ch') :
    d.x < e.x := by
  have hstart : (p.metrics font).maxWidth * (k + 1) ≤ (p.metrics font).maxWidth * l := Nat.mul_le_mul_left _ hkl
  obtain ⟨-, hdx⟩ := charDots_x hd
  obtain ⟨hex, -⟩ := charDots_x he
  omega

theorem scattered_textDots {n : Nat} {text : List Byte} : Scattered (textDots p font fsolid fg bg x0 y0 n text) := by
  induction text generalizing n with
  | nil => exact .nil
  | cons ch text ih =>
    refine scattered_append.2 ⟨scattered_charDots, ih, fun d hd e he => ?_⟩
    obtain ⟨k, ch', -, he⟩ := mem_textDots.1 he
    exact position_ne_iff.2 (.inl (charDots_x_lt (by omega) hd he).ne)

end

/-- Settles O57: rows differ inside a column, columns inside a character, and characters stand side by side. -/
theorem textPositionsAreDistinct : Obligations.TextPositionsAreDistinct :=
  fun _ _ _ _ _ _ _ _ => scattered_iff_nodup.1 scattered_textDots

/-! ## What a text leaves in `CUR` -/

/-- Where no two dots of a sequence stand at one position, every pixel keeps the colour its dot is plotted in. -/
theorem State.plotAll_curPixel_of_scattered {s : State} {ds : List Dot} (hds : Scattered ds) {d : Dot} (hd : d ∈ ds)
    {q : BufferPixel} (hq : s.target d = some q) : (s.plotAll ds).curPixel q = bitFor d.c q s.invert := by
  rw [State.curPixel, State.plotAll_params]
  refine State.plotAll_curBit_of_hit (fun e he q' hq' haddr => ?_) ⟨d, hd, q, hq, rfl⟩
  obtain rfl : q = q' := addr_injective (mapPixel_inside hq).1.2 (mapPixel_inside hq').1.2 haddr
  obtain ⟨hx, hy⟩ := mapPixel_injective hq' hq
  rw [List.inj_on_of_nodup_map (scattered_iff_nodup.1 hds) he hd (Prod.ext hx hy)]

/-- The dots of a column are the bits of its byte or bytes (R206). -/
theorem mem_columnDots {p : Params} {font : Nat} {fsolid : Bool} {fg bg : Colour} {g i : Nat} {x y0 : Int} {d : Dot} :
    d ∈ columnDots p font fsolid fg bg g i x y0 ↔ ∃ j : Nat, j < 8 ∧ d.x = x ∧
      (if (p.metrics font).height ≤ 8 then
        d.y = y0 + j ∧ Claims.glyphBit ((p.glyphRow font g i).getLsbD j) (fsolid = true) fg bg d.c
      else
        (d.y = y0 + j ∧ Claims.glyphBit ((p.glyphRow font g (2 * i)).getLsbD j) (fsolid = true) fg bg d.c) ∨
        (d.y = y0 + 8 + j ∧
          Claims.glyphBit ((p.glyphRow font g (2 * i + 1)).getLsbD j) (fsolid = true ∧ j < 4) fg bg d.c)) := by
  by_cases h : (p.metrics font).height ≤ 8
  · simp only [columnDots_oneByte h, mem_oneByteColumn, mem_bitDots, Claims.glyphBit, if_pos h]
  · simp only [columnDots_twoByte (Nat.lt_of_not_le h), mem_twoByteColumn, mem_bitDots, Claims.glyphBit, if_neg h,
      Bool.and_eq_true, decide_eq_true_eq, and_or_left (a := d.x = x)]

/-- The dots of a text are the pixels of R204 to R207. -/
theorem textPixel_iff_mem_textDots {p : Params} {font : Nat} {fsolid : Bool} {x0 y0 : Int} {fg bg : Colour}
    {text : List Byte} {x y : Int} {c : Colour} :
    Claims.TextPixel p font fsolid x0 y0 fg bg text x y c ↔ ⟨x, y, c⟩ ∈ textDots p font fsolid fg bg x0 y0 0 text := by
  simp only [mem_textDots, mem_charDots, mem_columnDots, Nat.zero_add]
  constructor
  · rintro ⟨k, i, j, g, ch, hch, hcode, hg, hi, hj, hx, hy⟩
    exact ⟨k, ch, hch, g, i, hcode, hg, hi, j, hj, hx, hy⟩
  · rintro ⟨k, ch, hch, g, i, hcode, hg, hi, j, hj, hx, hy⟩
    exact ⟨k, i, j, g, ch, hch, hcode, hg, hi, hj, hx, hy⟩

@[simp] theorem State.plotAll_fontPort (s : State) (ds : List Dot) : (s.plotAll ds).fontPort = s.fontPort := by
  rw [State.plotAll_eq, State.setCur_fontPort]

theorem State.callFont_plotAll_eq (s : State) (cs : List FontCall) (ds : List Dot) :
    (s.callFont cs).plotAll ds =
      { s with cur := ((s.callFont cs).plotAll ds).cur, fontPort := ((s.callFont cs).plotAll ds).fontPort } := by
  rw [State.plotAll_fontPort]
  exact State.plotAll_eq (s.callFont cs) ds

theorem exec_gtext_eq (x0 y0 : Word) (fg bg : Colour) (text : List Byte) (s : State) :
    exec (.gtext x0 y0 fg bg text) s =
      .next ((s.callFont (textCalls s.params s.font.toNat text)).plotAll
        (textDots s.params s.font.toNat s.fsolid fg bg x0.toInt y0.toInt 0 text)) := rfl

/-! ## The words of a text -/

theorem headerWord_coloursField (fg bg : Colour) :
    headerWord 0x27 (coloursField fg bg) = 0x2700 ||| (Claims.codeWord bg <<< 2) ||| Claims.codeWord fg := by
  cases fg <;> cases bg <;> rfl

theorem byteWord_eq_setWidth (b : Byte) : byteWord b = b.setWidth 16 := (BitVec.setWidth_eq_append (by decide)).symm

theorem byteWord_ofNat {n : Nat} (h : n ≤ 255) : byteWord (BitVec.ofNat 8 n) = BitVec.ofNat 16 n := by
  rw [byteWord_eq_setWidth]
  refine BitVec.eq_of_toNat_eq ?_
  simp only [BitVec.toNat_setWidth, BitVec.toNat_ofNat]
  omega

theorem legalColours_of_admits (a : Byte) (h : admits 0xF0 true true a = true) : Claims.legalColours a := by
  obtain ⟨hreserved, hfg, hbg⟩ := admits_iff.1 h
  exact ⟨hreserved, hfg rfl, hbg rfl⟩

/-- Settles O56: the dots of the text are its pixels, and no later dot plots over an earlier one. -/
theorem gtextDrawsItsGlyphs : Obligations.GtextDrawsItsGlyphs := by
  refine ⟨fun x0 y0 fg bg text s => ⟨_, exec_gtext_eq x0 y0 fg bg text s, State.callFont_plotAll_eq s _ _, ?pixel, ?kept⟩,
    ?encoding, ?reserved⟩
  case pixel =>
    intro x y c q hxy hmap
    exact State.plotAll_curPixel_of_scattered scattered_textDots (textPixel_iff_mem_textDots.1 hxy) hmap
  case kept =>
    intro a ha
    exact State.plotAll_curBit_of_missed fun d hd q hq => ha d.x d.y d.c q (textPixel_iff_mem_textDots.2 hd) hq
  case encoding =>
    intro x0 y0 fg bg text hlen
    rw [encode, headerWord_coloursField, byteWord_ofNat hlen, funext byteWord_eq_setWidth]
  case reserved => exact reservedFaults_of_row (by decide) legalColours_of_admits

/-! ## The requests on the font port (R203, R210) -/

/-- The row-byte requests of one character, by the range of codes that have a glyph. -/
theorem charCalls_eq (p : Params) (font : Nat) (ch : Byte) :
    charCalls p font ch =
      if (p.metrics font).firstCode ≤ ch.toNat ∧
          ch.toNat < (p.metrics font).firstCode + (p.metrics font).glyphCount then
        (List.range (if (p.metrics font).height ≤ 8 then (p.metrics font).maxWidth
          else 2 * (p.metrics font).maxWidth)).map
          (fun k => .glyphRow font (ch.toNat - (p.metrics font).firstCode) k)
      else [] := by
  have hwide : (p.metrics font).twoByte = true ↔ ¬ (p.metrics font).height ≤ 8 := by simp [Metrics.twoByte]
  split
  case isTrue hch =>
    have hg : (p.metrics font).glyphIndex? ch = some (ch.toNat - (p.metrics font).firstCode) :=
      glyphIndex?_eq_some.2 (by omega)
    simp only [charCalls, hg, hwide, ite_not]
  case isFalse hch =>
    have hg : (p.metrics font).glyphIndex? ch = none := by
      refine Option.eq_none_iff_forall_ne_some.2 fun g hg => hch ?_
      have hcode := glyphIndex?_eq_some.1 hg
      omega
    simp only [charCalls, hg]

/-- In a legal instance every glyph of a font has its row bytes, as many as the block asks for (R202). -/
theorem exists_glyph_of_wf {p : Params} (hp : p.wf = true) {f g : Nat} (hf : f < p.fontCount)
    (hg : g < (p.metrics f).glyphCount) :
    ∃ font row, p.fonts[f]? = some font ∧ font.glyphs[g]? = some row ∧
      row.length = if (p.metrics f).height ≤ 8 then (p.metrics f).maxWidth else 2 * (p.metrics f).maxWidth := by
  rw [Params.metrics_of_lt hf] at hg ⊢
  obtain ⟨-, -, -, -, hrows⟩ := (Font.wf_iff _).1 (p.wf_font hp (List.getElem_mem hf))
  exact ⟨p.fonts[f], p.fonts[f].glyphs[g], List.getElem?_eq_getElem hf, List.getElem?_eq_getElem hg,
    hrows _ (List.getElem_mem hg)⟩

/-- A legal instance is asked for row bytes inside the provider's domain alone (R203). -/
theorem charCalls_in_domain {p : Params} (hp : p.wf = true) {font : Nat} (hfont : font < p.fontCount) {ch : Byte}
    {f g k : Nat} (h : FontCall.glyphRow f g k ∈ charCalls p font ch) :
    f = font ∧ ∃ fnt row, p.fonts[f]? = some fnt ∧ fnt.glyphs[g]? = some row ∧ k < row.length := by
  rw [charCalls_eq] at h
  split at h
  case isTrue hch =>
    obtain ⟨k', hk', heq⟩ := List.mem_map.1 h
    obtain ⟨rfl, rfl, rfl⟩ := FontCall.glyphRow.inj heq
    obtain ⟨fnt, row, hfnt, hrow, hlen⟩ := exists_glyph_of_wf hp hfont (g := ch.toNat - (p.metrics font).firstCode)
      (by omega)
    exact ⟨rfl, fnt, row, hfnt, hrow, hlen ▸ List.mem_range.1 hk'⟩
  case isFalse => exact absurd h List.not_mem_nil

/-- Only `GTEXT` and `CHARSZX` ask the font provider. -/
theorem exec_fontPort_of_silent {i : Instr} {s t : State} (h : exec i s = .next t)
    (htext : ∀ x0 y0 fg bg text, i ≠ .gtext x0 y0 fg bg text) (hchar : i ≠ .charszx) : t.fontPort = s.fontPort := by
  cases i with
  | gtext => exact absurd rfl (htext _ _ _ _ _)
  | charszx => exact absurd rfl hchar
  | point x y c => cases h; exact State.plotAll_fontPort s [_]
  | line | dline | rect | drect | circle => cases h; exact State.plotAll_fontPort s _
  | _ => cases h; rfl

/-- Settles O58: the invariant gives a legal instance and a font number below `FONT_COUNT`. -/
theorem fontPortStaysInItsDomain : Obligations.FontPortStaysInItsDomain := by
  refine ⟨fun i s t h htext => ?others, fun x0 y0 fg bg text s t hs h =>
    ⟨text.flatMap (charCalls s.params s.font.toNat), ?asked, hs.fontLegal, ?calls, ?domain⟩⟩
  case others =>
    split
    case isTrue hchar => subst hchar; cases h; rfl
    case isFalse hchar => rw [exec_fontPort_of_silent h htext hchar, List.append_nil]
  case asked => cases h; exact State.plotAll_fontPort _ _
  case calls => rw [funext (charCalls_eq s.params s.font.toNat)]
  case domain =>
    intro f g k hcall
    obtain ⟨ch, -, hcall⟩ := List.mem_flatMap.1 hcall
    exact charCalls_in_domain hs.paramsWf hs.fontLegal hcall

end Sys2Proof.Machine
end

section
/-! The transfer command (spec/44_transfer.md): what `XFER` sends, and the plane `PREV` that its commit leaves. -/

namespace Sys2Proof.Machine

theorem State.readPrev_outside {s : State} (h : Memory.inside s.params.planeBytes s.prev) {i : Nat}
    (hi : s.params.planeBytes ≤ i) : s.readPrev i = Config.planeByte s.epoch .prev i := by
  rw [State.readPrev, Memory.read?_outside h hi, Option.getD_none]

section
variable {s t : State} (h : exec .xfer s = .next t)
include h

/-- `XFER` appends the bytes of `PREV`, then those of `CUR` (R220). -/
theorem exec_xfer_pix :
    t.pix = s.pix ++ (List.range s.params.planeBytes).map (fun i => ⟨0, s.readPrev i⟩)
      ++ (List.range s.params.planeBytes).map (fun i => ⟨1, s.readCur i⟩) := by
  cases h
  exact (List.append_assoc ..).symm

/-- The commit: inside the plane `PREV` holds the bytes of `CUR`, and outside no byte of it is listed. -/
theorem exec_xfer_readPrev (i : Nat) :
    t.readPrev i = if i < s.params.planeBytes then s.readCur i else Config.planeByte s.epoch .prev i := by
  cases h
  exact State.readPrev_fill (s.pushPix s.readOut) s.params.planeBytes s.readCur i

end

/-- Where `PREV` equals `CUR`, `XFER` sends the bytes of `CUR` for both planes. -/
theorem exec_xfer_pix_of_readPrev_eq {s t : State} (h : exec .xfer s = .next t)
    (heq : ∀ i < s.params.planeBytes, s.readPrev i = s.readCur i) :
    t.pix = s.pix ++ (List.range s.params.planeBytes).map (fun i => ⟨0, s.readCur i⟩)
      ++ (List.range s.params.planeBytes).map (fun i => ⟨1, s.readCur i⟩) := by
  have hprev : (List.range s.params.planeBytes).map (fun i => PixRecord.mk 0 (s.readPrev i)) =
      (List.range s.params.planeBytes).map (fun i => PixRecord.mk 0 (s.readCur i)) :=
    List.map_congr_left fun i hi => congrArg (PixRecord.mk 0) (heq i (List.mem_range.1 hi))
  rw [exec_xfer_pix h, hprev]

/-- Settles O59: the commit leaves `PREV` equal to `CUR`, so a second `XFER` sends `CUR` twice; beyond the plane nothing
is listed before or after. -/
theorem xferReadsOutThenCommits : Obligations.XferReadsOutThenCommits := by
  refine ⟨fun s hs => ?transfer, rfl, reservedFaults_of_row (by decide) legalNone_of_admits⟩
  obtain ⟨t, ht⟩ : ∃ t, exec .xfer s = .next t := ⟨_, rfl⟩
  have hframe : t = { s with prev := t.prev, pix := t.pix } := by cases ht; rfl
  have hparams : t.params = s.params := by rw [hframe]
  have hcur (i : Nat) : t.readCur i = s.readCur i := State.readCur_congr (by rw [hframe]) (by rw [hframe]) i
  have hcommit (i : Nat) (hi : i < s.params.planeBytes) : t.readPrev i = s.readCur i := by
    rw [exec_xfer_readPrev ht, if_pos hi]
  refine ⟨t, ht, hframe, exec_xfer_pix ht, hcommit, hcur, fun i hi => ?outside, _, rfl, ?second⟩
  case outside => rw [exec_xfer_readPrev ht, if_neg (Nat.not_lt.2 hi), State.readPrev_outside hs.prevInside hi]
  case second =>
    have hsame : ∀ i < t.params.planeBytes, t.readPrev i = t.readCur i := fun i hi => by
      rw [hcommit i (hparams ▸ hi), hcur]
    have hpix := exec_xfer_pix_of_readPrev_eq rfl hsame
    rwa [hparams, funext hcur] at hpix

end Sys2Proof.Machine
end

section
/-! The fault (spec/60): its entry, the faulted block, and what a run over whole commands and over a malformed one does. -/

namespace Sys2Proof.Machine

/-! ## The entry of the fault (R241) -/

theorem causeCode_eq_ite (cause : FaultCause) : causeCode cause = if cause = .fOpcode then 1 else 2 := by
  cases cause <;> rfl

/-- Settles O12: the step is the fault's entry, field by field, and the pins are those of the STATUS that it writes. -/
theorem malformedWordEntersTheFault : Obligations.MalformedWordEntersTheFault := by
  refine fun s w rest cause hin hf hd => ⟨step_of_malformed_fields hin hf hd, fun t ht => ?pins⟩
  case pins =>
    rw [step_of_malformed hin hf hd] at ht
    cases ht
    rw [← causeCode_eq_ite]
    exact State.enterFault_faulted (s.setInput rest) cause

/-! ## The faulted block (R242) -/

theorem step_of_faulted_no_input {s : State} (hf : s.faulted = true) (hin : s.input = []) :
    step s = .fault (.faulted s.fcause) := by
  simp [step, hin, State.noInput, hf]

/-- A faulted block drops the word it is presented. -/
theorem step_of_faulted {s : State} {w : Word} {rest : List PortEvent} (hf : s.faulted = true)
    (hin : s.input = .word w :: rest) : step s = .next (s.setInput rest) := by
  have hf' : (s.setInput rest).faulted = true := hf
  simp [step, hin, State.acceptWord, hf']

/-- A faulted block drops any number of words. -/
theorem run_of_faulted {s : State} (hf : s.faulted = true) {ws : List Word} {rest : List PortEvent}
    (hin : s.input = ws.map .word ++ rest) :
    Host.Core.run core ws.length s = .next { s with input := rest } := by
  induction ws generalizing s with
  | nil =>
    have hrest : s.input = rest := hin
    rw [← hrest]
    rfl
  | cons w ws ih =>
    rw [List.length_cons, run_succ_of_next (M := core) (step_of_faulted hf hin)]
    exact ih (s := s.setInput _) hf rfl

/-- A step that leaves the fault is an assertion of reset: the other steps of a faulted block drop a word. -/
theorem reset_of_step_leaves_fault {s t : State} (hs : s.faulted = true) (h : step s = .next t)
    (ht : t.faulted = false) : ∃ rest, s.input = .reset :: rest := by
  rcases step_cases h with ⟨rest, hin, -⟩ | ⟨_, _, -, -, rfl⟩ | ⟨_, _, -, hf, -⟩ | ⟨_, _, _, -, hf, -⟩ |
    ⟨_, _, _, _, -, hf, -⟩
  case inl => exact ⟨rest, hin⟩
  case inr.inl => exact absurd (hs.symm.trans ht) Bool.false_ne_true.symm
  all_goals exact absurd (hs.symm.trans hf) Bool.false_ne_true.symm

/-- Settles O13: words are dropped, the end of the input is the fault outcome, and reset alone leaves the fault, with no
byte of a plane listed. -/
theorem faultedBlockIsFrozenUntilReset : Obligations.FaultedBlockIsFrozenUntilReset := by
  intro s hs
  refine ⟨fun ws rest => run_of_faulted hs, step_of_faulted_no_input hs, fun rest hin => ?reset,
    fun t => reset_of_step_leaves_fault hs⟩
  case reset => exact ⟨_, step_of_reset hin, State.faulted_afterReset s.params (s.epoch + 1), fun k => ⟨rfl, rfl⟩⟩

/-! ## Commands in a row (R63, R246) -/

/-- A sequence of commands executes to its end (R246). -/
theorem execAll_next (is : List Instr) (s : State) : ∃ t, execAll is s = .next t := by
  induction is generalizing s with
  | nil => exact ⟨s, rfl⟩
  | cons i is ih =>
    obtain ⟨u, hu⟩ := exec_next i s
    simpa only [execAll, hu] using ih u

/-- What no sequence of commands changes: STATUS, the assembly buffer, the events to come. -/
theorem execAll_frame {is : List Instr} {s t : State} (h : execAll is s = .next t) :
    t.status = s.status ∧ t.asm = s.asm ∧ t.input = s.input := by
  induction is generalizing s with
  | nil => cases h; exact ⟨rfl, rfl, rfl⟩
  | cons i is ih =>
    obtain ⟨u, hu⟩ := exec_next i s
    simp only [execAll, hu] at h
    obtain ⟨-, -, hstatus, hasm, hinput⟩ := exec_frame hu
    rw [← hstatus, ← hasm, ← hinput]
    exact ih h

/-- A sequence of commands does not look at the events to come, and leaves them. -/
theorem execAll_setInput {is : List Instr} {s t : State} (h : execAll is s = .next t) (es : List PortEvent) :
    execAll is (s.setInput es) = .next (t.setInput es) := by
  induction is generalizing s with
  | nil => cases h; rfl
  | cons i is ih =>
    obtain ⟨u, hu⟩ := exec_next i s
    simp only [execAll, exec_setInput, hu] at h ⊢
    exact ih h

theorem State.faulted_congr {s t : State} (h : t.status = s.status) : t.faulted = s.faulted := by
  rw [State.faulted, h, State.faulted]

/-- Steps after a run that answers a next state go on from that state. -/
theorem run_add_of_next {M : Host.Core} {j : Nat} {s t : M.State} (h : M.run j s = .next t) (k : Nat) :
    M.run (j + k) s = M.run k t := by
  induction j generalizing s with
  | zero => cases h; rw [Nat.zero_add]
  | succ j ih =>
    rw [Host.Core.run] at h
    cases hstep : M.step s with
    | next u =>
      rw [hstep] at h
      rw [Nat.add_right_comm, run_succ_of_next hstep, ih h]
    | fault r | refused r => rw [hstep] at h; cases h

/-- The words of a sequence of commands execute the commands one after the other: after each the block waits again for a
header and is not faulted. -/
theorem run_flatMap_encode {is : List Instr} (hwf : ∀ i ∈ is, i.wf = true) {s : State} (hf : s.faulted = false)
    (hasm : s.asm = []) {rest : List PortEvent} (hin : s.input = (is.flatMap encode).map .word ++ rest) :
    Host.Core.run core (is.flatMap encode).length s = execAll is (s.setInput rest) := by
  induction is generalizing s with
  | nil =>
    have hrest : s.input = rest := hin
    rw [← hrest]
    rfl
  | cons i is ih =>
    obtain ⟨hi, his⟩ := List.forall_mem_cons.1 hwf
    rw [List.flatMap_cons, List.map_append, List.append_assoc] at hin
    obtain ⟨u, hu⟩ := exec_next i s
    obtain ⟨-, -, hstatus, huasm, -⟩ := exec_frame hu
    have hexec (es : List PortEvent) : exec i (s.setInput es) = .next (u.setInput es) := by rw [exec_setInput, hu]
    have hrun := (run_encode hi hf hasm hin).trans (hexec _)
    rw [List.flatMap_cons, List.length_append, run_add_of_next (M := core) hrun]
    simp only [execAll, hexec]
    exact ih his (s := u.setInput ((is.flatMap encode).map .word ++ rest)) ((State.faulted_congr hstatus).trans hf)
      (huasm.trans hasm) rfl

/-- Settles O17: the run is the execution of the commands, which comes to its end and leaves STATUS and the buffer. -/
theorem wellFormedSequenceNeverFaults : Obligations.WellFormedSequenceNeverFaults := by
  intro is s rest hwf hf hasm hin
  obtain ⟨t, ht⟩ := execAll_next is (s.setInput rest)
  obtain ⟨hstatus, htasm, htinput⟩ := execAll_frame ht
  exact ⟨t, ht, (run_flatMap_encode hwf hf hasm hin).trans ht, (State.faulted_congr hstatus).trans hf,
    htasm.trans hasm, htinput⟩

/-! ## A malformed command (R244, R245) -/

/-- A command whose last word is the first that fails its check: its words are held, and the last enters the fault, with
nothing executed. -/
theorem run_of_malformed {s : State} (hf : s.faulted = false) (hasm : s.asm = []) {bad : List Word}
    {cause : FaultCause} (hd : decode bad = .malformed cause)
    (hheld : ∀ k, k < bad.length → decode (bad.take k) = .incomplete) {rest : List PortEvent}
    (hin : s.input = bad.map .word ++ rest) :
    Host.Core.run core bad.length s = .next ((s.setInput rest).enterFault cause) := by
  obtain rfl | ⟨ws, w, rfl⟩ := List.eq_nil_or_concat' bad
  · cases hd
  have hws : decode ws = .incomplete := by simpa using hheld ws.length (by simp)
  rw [List.map_append, List.append_assoc] at hin
  rw [List.length_append, run_of_incomplete hf hin (by rw [hasm]; exact hws)]
  exact (run_one (M := core) _).trans <| step_of_malformed (s := { s with asm := s.asm ++ ws, input := _ }) rfl hf
    (by rw [hasm]; exact hd)

/-- Settles O18: the complete commands execute, the malformed one enters the fault, and the words after it are
dropped. -/
theorem faultIsPreciseAtCommands : Obligations.FaultIsPreciseAtCommands := by
  intro is bad more cause s rest hwf hf hasm hd hheld hin
  obtain ⟨t, ht⟩ := execAll_next is (s.setInput rest)
  obtain ⟨hstatus, htasm, htinput⟩ := execAll_frame ht
  refine ⟨t, ht, ?run⟩
  case run =>
    simp only [List.map_append, List.append_assoc] at hin
    have hcommands := (run_flatMap_encode hwf hf hasm hin).trans (execAll_setInput ht _)
    have hmalformed := run_of_malformed (s := t.setInput (bad.map .word ++ (more.map .word ++ rest)))
      ((State.faulted_congr hstatus).trans hf) (htasm.trans hasm) hd hheld rfl
    rw [List.append_assoc, List.length_append, List.length_append, run_add_of_next (M := core) hcommands,
      run_add_of_next (M := core) hmalformed, run_of_faulted (State.enterFault_faulted _ cause).1 rfl]
    simp [State.enterFault_eq, faultStatus_eq_statusAfter, htasm, hasm, htinput]

end Sys2Proof.Machine
end

section
/-! What can change `PREV`, and the state after an assertion of reset. -/

namespace Sys2Proof.Machine

/-! ## `PREV` is changed by `XFER` alone (R266) -/

section
variable {i : Instr} {s t : State} (h : exec i s = .next t) (hx : i ≠ .xfer)
include h hx

theorem exec_prev_of_ne_xfer : t.prev = s.prev := by
  rcases exec_prev_cases h with hprev | ⟨hi, -⟩
  · exact hprev
  · exact absurd hi hx

/-- No command opens an epoch, so the bytes of `PREV` that are not listed read the same too. -/
theorem exec_readPrev_of_ne_xfer (k : Nat) : t.readPrev k = s.readPrev k := by
  obtain ⟨-, hepoch, -⟩ := exec_frame h
  exact State.readPrev_congr (exec_prev_of_ne_xfer h hx) hepoch k

end

/-- Settles O22: of the five things a step can do, all but reset and a command leave the planes, and the command is
`XFER`. -/
theorem onlyXferWritesPrev : Obligations.OnlyXferWritesPrev := by
  refine ⟨fun i s t h hx => ⟨exec_prev_of_ne_xfer h hx, exec_readPrev_of_ne_xfer h hx⟩, fun s t h hne => ?step⟩
  case step =>
    rcases step_cases h with ⟨rest, hin, -⟩ | ⟨_, _, -, -, rfl⟩ | ⟨_, _, -, -, -, rfl⟩ | ⟨_, _, _, -, -, -, rfl⟩ |
      ⟨w, rest, i, more, hin, hf, hd, hexec⟩
    case inl => exact .inl ⟨rest, hin⟩
    case inr.inr.inr.inr =>
      obtain rfl : i = .xfer := by
        by_contra hx
        have hkept := exec_prev_of_ne_xfer hexec hx
        exact hne hkept
      exact .inr ⟨w, rest, more, hin, hf, hd⟩
    all_goals exact absurd rfl hne

/-! ## The state after an assertion of reset (R38, R260) -/

theorem State.assertReset_readCur (s : State) (k : Nat) :
    s.assertReset.readCur k = Config.planeByte (s.epoch + 1) .cur k := rfl

theorem State.assertReset_readPrev (s : State) (k : Nat) :
    s.assertReset.readPrev k = Config.planeByte (s.epoch + 1) .prev k := rfl

/-- Settles O15: every register, the buffer and both streams are those of `State.afterReset`, which lists no byte of a
plane. -/
theorem resetAssertionGivesTheResetState : Obligations.ResetAssertionGivesTheResetState := by
  intro s rest hin
  refine ⟨_, step_of_reset hin, ?registers⟩
  case registers =>
    have hcur := (s.setInput rest).assertReset_readCur
    have hprev := (s.setInput rest).assertReset_readPrev
    simpa [State.assertReset_eq] using fun k => And.intro (hcur k) (hprev k)

end Sys2Proof.Machine
end
